-- ==== Sys2Proof/Word.lean ====
section
/-! DEFINITION. The bit-vector types of the block (spec 00_scope.md R7, R8): every value is a fixed-width
vector whose bit 0 is the least significant. -/

namespace Sys2Proof

/-- One port level or one 1-bit register. -/
abbrev Bit := BitVec 1

/-- One output byte or one ROM byte (OUT_BITS and ENTRY_BITS, R7). -/
abbrev Byte := BitVec 8

/-- The cycle input word `W` (30_encoding.md R42). -/
abbrev CycleWord := BitVec 6

/-- A pin pattern `(pin_b << 1) | pin_a` (PIN_BITS, R7; 30_encoding.md R44), written `BA` (R9). -/
abbrev PinPattern := BitVec 2

/-- The encoding of a state of the quadrature state machine (STATE_BITS, R7; 10_state.md R16). -/
abbrev FsmCode := BitVec 4

/-- The rotation accumulator (ACC_WIDTH, R7; 10_state.md R21). -/
abbrev Acc := BitVec 7

/-- An address of the transition-table ROM (20_memory.md R29). -/
abbrev RomAddress := BitVec 6

end Sys2Proof
end

