-- ==== Sys2Proof/Syntax.lean ====
section
/-! DEFINITION. The commands of the block (spec 30_encoding.md R51, opcode_table.json), and the input ports of one
cycle (R41). -/

namespace Sys2Proof

/-- The command of one cycle, one constructor per row of opcode_table.json. The bits a command ignores (R52) are no
operands of it. -/
inductive Instr where
  /-- RESET, `1xxxxx` (70_reset_and_hazards.md R101). -/
  | reset
  /-- NOP, `000xxx` (41_read.md R66). -/
  | nop
  /-- PROCESS, `001sba` (40_process.md R56): `s` the raw level of `pin_sw` (0 = pressed), `b` and `a` the contacts. -/
  | process (s b a : Bit)
  /-- READ, `010xxx` (41_read.md R64). -/
  | read
  /-- PROCESS_READ, `011sba` (41_read.md R67), operands as PROCESS. -/
  | processRead (s b a : Bit)
  deriving DecidableEq, Repr

/-- The levels of the six input ports other than `clk` in one cycle (30_encoding.md R41). `clk` is no field: one step of
the model is one rising edge. A level is a bit, since a 1-bit port carries nothing else (40_process.md R57, I5). -/
structure Ports where
  rst : Bit
  readEn : Bit
  processEn : Bit
  pinSw : Bit
  pinB : Bit
  pinA : Bit
  deriving DecidableEq, Repr

end Sys2Proof
end

