-- ==== Sys2Proof/WellFormed.lean ====
section
/-! DEFINITION. What a well-formed instruction and a well-formed instruction byte are. -/

namespace Sys2Proof

/-- Every term of `Instr` is a command of the block: its operands are 1-bit levels and no value of them is reserved
(30_encoding.md R52, 40_process.md R57). The one check of this hardware is `isCycleByte`. -/
def Instr.wellFormed : Instr → Bool
  | .reset => true
  | .nop => true
  | .process _ _ _ => true
  | .read => true
  | .processRead _ _ _ => true

/-- A byte that holds a cycle input word, as a command stream writes it (30_encoding.md R54): the six bits of `W`
(R42), and nothing above them. -/
def isCycleByte (b : Byte) : Bool := b.extractLsb' 6 2 == 0#2

end Sys2Proof
end

