-- ==== Sys2Proof/Decode.lean ====
section
/-! DEFINITION. The cycle input word, its decoder and encoder (spec 30_encoding.md R42, R43, R51 to R54), and the rows of
the command map. -/

namespace Sys2Proof

/-- The cycle input word of the port levels (R42): `W = rst, read_en, process_en, pin_sw, pin_b, pin_a`, bit 5 first. -/
def Ports.word (p : Ports) : CycleWord :=
  p.rst ++ p.readEn ++ p.processEn ++ p.pinSw ++ p.pinB ++ p.pinA

/-- Field `X` of `W` (R42): `rst`. -/
def CycleWord.rst (w : CycleWord) : Bit := w.extractLsb' 5 1

/-- Field `Rd` of `W` (R42): `read_en`. -/
def CycleWord.readEn (w : CycleWord) : Bit := w.extractLsb' 4 1

/-- Field `P` of `W` (R42): `process_en`. -/
def CycleWord.processEn (w : CycleWord) : Bit := w.extractLsb' 3 1

/-- Field `s` of `W` (R42): `pin_sw`. -/
def CycleWord.pinSw (w : CycleWord) : Bit := w.extractLsb' 2 1

/-- Field `b` of `W` (R42): `pin_b`. -/
def CycleWord.pinB (w : CycleWord) : Bit := w.extractLsb' 1 1

/-- Field `a` of `W` (R42): `pin_a`. -/
def CycleWord.pinA (w : CycleWord) : Bit := w.extractLsb' 0 1

/-- The command of a cycle (R43): `rst` first, then the two strobes; the three pins are the operands of PROCESS and
PROCESS_READ. Every word decodes (R52). -/
def decode (w : CycleWord) : Instr :=
  if CycleWord.rst w = 1#1 then .reset
  else if CycleWord.readEn w = 1#1 then
    if CycleWord.processEn w = 1#1 then
      .processRead (CycleWord.pinSw w) (CycleWord.pinB w) (CycleWord.pinA w)
    else .read
  else if CycleWord.processEn w = 1#1 then
    .process (CycleWord.pinSw w) (CycleWord.pinB w) (CycleWord.pinA w)
  else .nop

/-- The word of a command (R51); the ignored bits are written as 0 (R54). -/
def encode : Instr → CycleWord
  | .reset => 0b100000#6
  | .nop => 0b000000#6
  | .process s b a => 0b001#3 ++ s ++ b ++ a
  | .read => 0b010000#6
  | .processRead s b a => 0b011#3 ++ s ++ b ++ a

/-- Why bytes are no command. -/
inductive DecodeError where
  /-- There is no byte left to decode. -/
  | noByte
  /-- Bit 7 or bit 6 is set: the cycle input word has six bits (R42), and no port stands behind the other two. -/
  | notACycleWord
  deriving DecidableEq, Repr

/-- One byte of a command stream (R54): `W` in bits 5..0. That a byte with bit 7 or 6 set is rejected is the model's choice.
DESIGN CHOICE: log 11; safe. -/
def decodeByte (b : Byte) : Except DecodeError Instr :=
  if isCycleByte b then .ok (decode (b.extractLsb' 0 6)) else .error .notACycleWord

/-- The first command of a list of bytes, and the bytes after it; every command is one byte long (R53). -/
def decodeBytes : List Byte → Except DecodeError (Instr × List Byte)
  | [] => .error .noByte
  | b :: rest =>
    match decodeByte b with
    | .ok i => .ok (i, rest)
    | .error e => .error e

/-- All the commands of a list of bytes. -/
def decodeStream : List Byte → Except DecodeError (List Instr)
  | [] => .ok []
  | b :: rest =>
    match decodeByte b, decodeStream rest with
    | .ok i, .ok is => .ok (i :: is)
    | .error e, _ => .error e
    | .ok _, .error e => .error e

/-- The byte of a command: its word in bits 5..0, bits 7..6 zero (R54). -/
def encodeByte (i : Instr) : Byte := (encode i).setWidth 8

/-- The bytes of a list of commands, in order. -/
def encodeStream : List Instr → List Byte
  | [] => []
  | i :: is => encodeByte i :: encodeStream is

/-- The instruction the decoder reads from an instruction whose bits are `w`, of which the opcode table gives `nbits`.
A number that fits no byte, like a byte that holds no cycle word, is no instruction. -/
def decodeTableWord (nbits w : Nat) : Option Instr :=
  if w % 2 ^ nbits < 256 then
    match decodeBytes [BitVec.ofNat 8 (w % 2 ^ nbits)] with
    | .ok (i, _) => some i
    | .error _ => none
  else none

/-- One row of the command map (R51): a word `w` is the row's command when `w &&& mask = bits`. -/
structure OpRow where
  mnemonic : String
  bits : CycleWord
  mask : CycleWord
  deriving DecidableEq, Repr

/-- The row of a command (R51). -/
def Instr.row : Instr → OpRow
  | .reset => ⟨"RESET", 0x20#6, 0x20#6⟩
  | .nop => ⟨"NOP", 0x00#6, 0x38#6⟩
  | .process _ _ _ => ⟨"PROCESS", 0x08#6, 0x38#6⟩
  | .read => ⟨"READ", 0x10#6, 0x38#6⟩
  | .processRead _ _ _ => ⟨"PROCESS_READ", 0x18#6, 0x38#6⟩

/-- The whole command map (R51), in its order. -/
def opRows : List OpRow :=
  [Instr.reset.row, Instr.nop.row, (Instr.process 0 0 0).row, Instr.read.row, (Instr.processRead 0 0 0).row]

/-- Whether a word is one of the row's words. -/
def OpRow.takes (r : OpRow) (w : CycleWord) : Bool := w &&& r.mask == r.bits

end Sys2Proof
end

