-- ==== Sys2Proof/Config.lean ====
section
/-! DEFINITION. What is fixed when the block is built (spec 00_scope.md R6, R7), and the values the spec leaves
open. Every `opaque` constant here has no body: no proof can learn its value. -/

namespace Sys2Proof

/-- The two values of the build-time parameter `TABLE` (00_scope.md R6). -/
inductive Table where
  | halfStep
  | fullStep
  deriving DecidableEq, Repr, Inhabited

/-- A physical turning sense, the values of the parameter `CW_SENSE` (00_scope.md R7). -/
inductive TurningSense where
  | clockwise
  | counterClockwise
  deriving DecidableEq, Repr, Inhabited

/-- `TABLE` of the instance that `State.reset` describes. The spec gives no default (R6, D10, I14 `parameter`).
DESIGN CHOICE: an opaque constant, read once, by `State.reset`; log 1; safe. -/
opaque Config.table : Table

/-- `CW_SENSE`: the physical sense of direction code 1, which depends on wiring no source gives (R7, D23, I9
`parameter`). No rule depends on it, and no definition of the model reads it; log 10; safe. -/
opaque Config.cwSense : TurningSense

/-- What the host drives in a cycle for which the model's input list holds no word: a free value for each draw.
DESIGN CHOICE: log 3; safe. -/
opaque Config.hostWord : Nat → CycleWord

/-- `fsm_state` after power-up, before the first RESET (10_state.md R28, I6 `any value`); log 9; safe. -/
opaque Config.powerUpFsmState : FsmCode

/-- `acc` after power-up, before the first RESET (R28, I6); log 9; safe. -/
opaque Config.powerUpAcc : Acc

/-- `sw_state` after power-up, before the first RESET (R28, I6); log 9; safe. -/
opaque Config.powerUpSwState : Bit

/-- `status_out` before the first command after power-up (70_reset_and_hazards.md R103); log 9; safe. -/
opaque Config.powerUpStatus : Byte

/-- `read_out` before the first command after power-up (R103); log 9; safe. -/
opaque Config.powerUpRead : Byte

end Sys2Proof
end

