-- ==== Sys2Proof/Machine/State.lean ====
section
/-! DEFINITION. The state of one instance (spec 10_state.md), the reasons a step can stop, and the state after reset. -/

namespace Sys2Proof.Machine

/-- One instance of the block, between two rising edges of `clk`. The three registers are the architectural state
(10_state.md R13); the other fields are described one by one. -/
structure State where
  /-- The build parameter `TABLE` of this instance (00_scope.md R6): no command reads it as an operand or writes it. -/
  table : Table
  /-- `fsm_state`, the current node of the quadrature state machine (R16). -/
  fsmState : FsmCode
  /-- `acc`, the rotation accumulator (R21). -/
  acc : Acc
  /-- `sw_state`, the switch synchronizer's stored level, 1 = pressed (R23). -/
  swState : Bit
  /-- The byte on `status_out` in the cycle that ended in this state (30_encoding.md R48, 41_read.md R68); log 2. -/
  statusOut : Byte
  /-- The byte on `read_out` in the cycle that ended in this state (30_encoding.md R49, 41_read.md R68); log 2. -/
  readOut : Byte
  /-- The model's own: the cycle input words the host drives in the coming cycles, next first; log 3. -/
  hostWords : List CycleWord
  /-- The model's own: how many words were drawn from `Config.hostWord`; log 4. -/
  draws : Nat
  deriving DecidableEq, Repr

/-- Why the machine stops. -/
inductive Fault where
  /-- PROCESS or PROCESS_READ found in `fsm_state` a value that encodes no state of the instance's table
  (10_state.md R20, I3 `fault`). Safe: no run that starts with a RESET reaches it; log 5. -/
  | illegalFsmState
  deriving DecidableEq, Repr

/-- Why an instruction has no meaning. -/
inductive Refusal where
  /-- The instruction of that mnemonic is not modelled. Raised by an arm of `exec` alone, and no arm of this model raises it.
  Safe. -/
  | notModelled (mnemonic : String)
  deriving DecidableEq, Repr

/-- What one command answers. -/
abbrev Result := Host.Outcome State Fault Refusal

/-- The state after RESET of an instance built with table `t` (10_state.md R28, 70_reset_and_hazards.md R101): START,
a count of 0, switch released, both outputs 0x00. The model's own fields: no word placed, none drawn (log 3, log 4). -/
def State.resetFor (t : Table) : State where
  table := t
  fsmState := 0x0#4
  acc := 0#7
  swState := 0#1
  statusOut := 0x00#8
  readOut := 0x00#8
  hostWords := []
  draws := 0

/-- The state after RESET of the instance whose `TABLE` is `Config.table`, of which nothing is known (log 1). -/
def State.reset : State := State.resetFor Config.table

/-- The state after power-up, before the first RESET: every register and output is a free value (R28, R103, I6);
log 9. A command issued from it drives the outputs its own rule gives, although R103 leaves them unspecified.
DESIGN CHOICE: log 15; unsafe. -/
def State.powerUp : State where
  table := Config.table
  fsmState := Config.powerUpFsmState
  acc := Config.powerUpAcc
  swState := Config.powerUpSwState
  statusOut := Config.powerUpStatus
  readOut := Config.powerUpRead
  hostWords := []
  draws := 0

end Sys2Proof.Machine
end

