-- ==== Sys2Proof/Machine/Rom.lean ====
section
/-! DEFINITION. The transition-table ROM (spec 20_memory.md R29, R30) and its contents (42_transition_tables.md R70 to
R84). The contents are the spec's, which marks them as general knowledge (D9, G1); log 7. -/

namespace Sys2Proof.Machine

/-- The direction of an entry (30_encoding.md R46). Code 3 is reserved, and no entry holds it (R47): an entry cannot
represent it (I4); log 6. -/
inductive Dir where
  | noEvent
  | cw
  | ccw
  deriving DecidableEq, Repr

/-- The 2-bit direction code (R46). -/
def Dir.code : Dir → BitVec 2
  | .noEvent => 0#2
  | .cw => 1#2
  | .ccw => 2#2

/-- The detent events a direction stands for: +1 clockwise, -1 counter-clockwise (40_process.md R60). -/
def Dir.sign : Dir → Int
  | .noEvent => 0
  | .cw => 1
  | .ccw => -1

/-- One entry of a transition table (R45). -/
structure Entry where
  next : FsmCode
  dir : Dir
  deriving DecidableEq, Repr

/-- The byte of an entry (R45): the next state in bits 3..0, the direction code in bits 5..4, bits 7..6 zero. -/
def Entry.byte (e : Entry) : Byte := 0#2 ++ e.dir.code ++ e.next

/-- An entry without an event. -/
def quiet (next : FsmCode) : Entry := ⟨next, .noEvent⟩

/-- An entry that emits a clockwise event. -/
def emitCw (next : FsmCode) : Entry := ⟨next, .cw⟩

/-- An entry that emits a counter-clockwise event. -/
def emitCcw (next : FsmCode) : Entry := ⟨next, .ccw⟩

/-- START, the same encoding in both tables (10_state.md R18, R19). -/
abbrev fsmStart : FsmCode := 0x0#4

/-- Half-step CCW_BEGIN (R18). -/
abbrev Half.ccwBegin : FsmCode := 0x1#4
/-- Half-step CW_BEGIN (R18). -/
abbrev Half.cwBegin : FsmCode := 0x2#4
/-- Half-step START_MIRROR (R18). -/
abbrev Half.startMirror : FsmCode := 0x3#4
/-- Half-step CW_BEGIN_MIRROR (R18). -/
abbrev Half.cwBeginMirror : FsmCode := 0x4#4
/-- Half-step CCW_BEGIN_MIRROR (R18). -/
abbrev Half.ccwBeginMirror : FsmCode := 0x5#4

/-- Full-step CW_FINAL (R19). -/
abbrev Full.cwFinal : FsmCode := 0x1#4
/-- Full-step CW_BEGIN (R19). -/
abbrev Full.cwBegin : FsmCode := 0x2#4
/-- Full-step CW_NEXT (R19). -/
abbrev Full.cwNext : FsmCode := 0x3#4
/-- Full-step CCW_BEGIN (R19). -/
abbrev Full.ccwBegin : FsmCode := 0x4#4
/-- Full-step CCW_FINAL (R19). -/
abbrev Full.ccwFinal : FsmCode := 0x5#4
/-- Full-step CCW_NEXT (R19). -/
abbrev Full.ccwNext : FsmCode := 0x6#4

/-- The ROM address of state `s` and pin pattern `p` (R29): `(s << 2) | p`. -/
def romAddress (s : FsmCode) (p : PinPattern) : RomAddress := (s.setWidth 6 <<< 2) ||| p.setWidth 6

/-- The four cells of a state's row, for the patterns `00`, `01`, `10`, `11`. -/
def romRow (s : FsmCode) (e00 e01 e10 e11 : Entry) : List (Nat × Entry) :=
  [((romAddress s 0b00#2).toNat, e00), ((romAddress s 0b01#2).toNat, e01),
   ((romAddress s 0b10#2).toNat, e10), ((romAddress s 0b11#2).toNat, e11)]

/-- The half-step table (R72 to R77). -/
def halfStepRom : List (Nat × Entry) :=
  romRow fsmStart
    (quiet fsmStart) (quiet Half.ccwBegin) (quiet Half.cwBegin) (quiet Half.startMirror) ++
  romRow Half.ccwBegin
    (quiet fsmStart) (quiet Half.ccwBegin) (quiet fsmStart) (emitCcw Half.startMirror) ++
  romRow Half.cwBegin
    (quiet fsmStart) (quiet fsmStart) (quiet Half.cwBegin) (emitCw Half.startMirror) ++
  romRow Half.startMirror
    (quiet fsmStart) (quiet Half.cwBeginMirror) (quiet Half.ccwBeginMirror) (quiet Half.startMirror) ++
  romRow Half.cwBeginMirror
    (emitCw fsmStart) (quiet Half.cwBeginMirror) (quiet Half.startMirror) (quiet Half.startMirror) ++
  romRow Half.ccwBeginMirror
    (emitCcw fsmStart) (quiet Half.startMirror) (quiet Half.ccwBeginMirror) (quiet Half.startMirror)

/-- The full-step table (R78 to R84). -/
def fullStepRom : List (Nat × Entry) :=
  romRow fsmStart
    (quiet fsmStart) (quiet Full.ccwBegin) (quiet Full.cwBegin) (quiet fsmStart) ++
  romRow Full.cwFinal
    (emitCw fsmStart) (quiet Full.cwFinal) (quiet fsmStart) (quiet Full.cwNext) ++
  romRow Full.cwBegin
    (quiet fsmStart) (quiet fsmStart) (quiet Full.cwBegin) (quiet Full.cwNext) ++
  romRow Full.cwNext
    (quiet fsmStart) (quiet Full.cwFinal) (quiet Full.cwBegin) (quiet Full.cwNext) ++
  romRow Full.ccwBegin
    (quiet fsmStart) (quiet Full.ccwBegin) (quiet fsmStart) (quiet Full.ccwNext) ++
  romRow Full.ccwFinal
    (emitCcw fsmStart) (quiet fsmStart) (quiet Full.ccwFinal) (quiet Full.ccwNext) ++
  romRow Full.ccwNext
    (quiet fsmStart) (quiet Full.ccwBegin) (quiet Full.ccwFinal) (quiet Full.ccwNext)

/-- The cells of the ROM that `TABLE` selects (R30, R70). -/
def rom : Table → List (Nat × Entry)
  | .halfStep => halfStepRom
  | .fullStep => fullStepRom

/-- The ROM as bytes: its address and byte pairs, addresses strictly rising. -/
def romBytes (t : Table) : List Host.Cell := (rom t).map fun c => (c.1, c.2.byte)

/-- The canonical form of a memory: addresses strictly rising. An address that is not listed holds no entry (R29), so
no listed cell can equal what an unlisted address reads as. -/
def Memory.wf : List Host.Cell → Bool
  | [] => true
  | [_] => true
  | c :: d :: rest => decide (c.1 < d.1) && Memory.wf (d :: rest)

/-- The cell at an address, if the address holds one. -/
def Memory.lookup {α : Type} : List (Nat × α) → Nat → Option α
  | [], _ => none
  | c :: rest, addr => if c.1 = addr then some c.2 else Memory.lookup rest addr

/-- `MemRead(addr, 8)` of the ROM that `TABLE` selects (00_scope.md R11): its byte, or none at an address that holds no
entry (20_memory.md R29). -/
def memRead (t : Table) (addr : RomAddress) : Option Byte := Memory.lookup (romBytes t) addr.toNat

/-- The legal values of `fsm_state` (10_state.md R18, R19, R20): 0x0 to 0x5 under both tables, 0x6 under FULL_STEP
alone. -/
def fsmLegal (t : Table) (s : FsmCode) : Bool := decide (s.toNat < 6) || (decide (s = 0x6#4) && t == .fullStep)

/-- What stands at the addresses that hold no entry. No meaning reads one: an illegal state faults first (R29 "never
read"); log 5. -/
def romUnlisted : Entry := quiet fsmStart

/-- `TableRead(TABLE, s, p)` (00_scope.md R11, 20_memory.md R29), read as an entry. -/
def tableRead (t : Table) (s : FsmCode) (p : PinPattern) : Entry :=
  (Memory.lookup (rom t) (romAddress s p).toNat).getD romUnlisted

end Sys2Proof.Machine
end

