-- ==== Sys2Proof/Machine/Flags.lean ====
section
/-! DEFINITION. The accumulator's arithmetic and the two output bytes. The block has no condition codes; its one flag,
`sw_state`, is computed by `switchLevel` (spec 10_state.md R24). -/

namespace Sys2Proof.Machine

/-- The rotation accumulator step (40_process.md R60): +1 on CW, -1 on CCW, modulo 2^7, never saturating. -/
def accStep (d : Dir) (acc : Acc) : Acc :=
  match d with
  | .noEvent => acc
  | .cw => acc + 1#7
  | .ccw => acc - 1#7

/-- The status byte (30_encoding.md R48, 40_process.md R61): `(sw1 << 2) | dir`, bits 7..3 zero. -/
def statusByte (sw1 : Bit) (d : Dir) : Byte := (sw1.setWidth 8 <<< 2) ||| d.code.setWidth 8

/-- The read byte (30_encoding.md R49): `(sw_state << 7) | acc`. -/
def readByte (sw : Bit) (acc : Acc) : Byte := (sw.setWidth 8 <<< 7) ||| acc.setWidth 8

/-- The rotation delta the host reads in a read byte (30_encoding.md R50): `sext_7(r[6:0])`. -/
def readDelta (r : Byte) : Int := (r.extractLsb' 0 7).toInt

/-- The switch the host reads in a read byte (30_encoding.md R50): `r[7]`, 1 = pressed. -/
def readSwitch (r : Byte) : Bit := r.extractLsb' 7 1

/-- The direction code the host reads in a status byte (30_encoding.md R48): bits 1..0. -/
def statusDir (b : Byte) : BitVec 2 := b.extractLsb' 0 2

/-- The switch the host reads in a status byte (30_encoding.md R48): bit 2. -/
def statusSwitch (b : Byte) : Bit := b.extractLsb' 2 1

end Sys2Proof.Machine
end

