-- ==== Sys2Proof/Machine/Operands.lean ====
section
/-! DEFINITION. The operands of PROCESS and PROCESS_READ, assembled from the sampled levels (spec 30_encoding.md R44,
40_process.md R57, R58). -/

namespace Sys2Proof.Machine

/-- The pin pattern (30_encoding.md R44): `(pin_b << 1) | pin_a`. -/
def pinPattern (b a : Bit) : PinPattern := (b.setWidth 2 <<< 1) ||| a.setWidth 2

/-- The level the switch synchronizer stores (40_process.md R58): the inverse of the raw sample, 1 = pressed. -/
def switchLevel (s : Bit) : Bit := ~~~s

end Sys2Proof.Machine
end

