-- ==== Sys2Proof/Machine/Ops.lean ====
section
/-! DEFINITION. The named operations every meaning is written over: writing the registers, driving the outputs, the
PROCESS step shared by PROCESS and PROCESS_READ, and taking the cycle's input word. The block raises no exception and has
no trap entry and no trap return (spec 60_exceptions.md R89, R93, R94), so there is no operation for one. -/

namespace Sys2Proof.Machine

/-- The three registers written together at the clock edge (00_scope.md R11). -/
def State.writeRegs (fsm : FsmCode) (acc : Acc) (sw : Bit) (s : State) : State :=
  { s with fsmState := fsm, acc := acc, swState := sw }

/-- `acc <- 0` (41_read.md R64). -/
def State.clearAcc (s : State) : State := { s with acc := 0#7 }

/-- The two output bytes of the cycle (00_scope.md R11). -/
def State.drive (status read : Byte) (s : State) : State := { s with statusOut := status, readOut := read }

/-- The PROCESS part of a cycle (40_process.md R56): the table step from the sampled levels, counting from `acc0`, with
`read` on `read_out`. PROCESS counts from `acc`, PROCESS_READ from 0 (41_read.md R67). An illegal `fsm_state` has no entry
and faults (10_state.md R20). -/
def processFrom (acc0 : Acc) (read : Byte) (sw b a : Bit) (s : State) : Result :=
  if fsmLegal s.table s.fsmState then
    .next
      ((s.writeRegs (tableRead s.table s.fsmState (pinPattern b a)).next
          (accStep (tableRead s.table s.fsmState (pinPattern b a)).dir acc0) (switchLevel sw)).drive
        (statusByte (switchLevel sw) (tableRead s.table s.fsmState (pinPattern b a)).dir) read)
  else .fault .illegalFsmState

/-- The word on the input ports in the coming cycle (30_encoding.md R42): the next one the host has placed, or, where it
has placed none, a free draw; log 3. -/
def State.nextWord (s : State) : CycleWord :=
  match s.hostWords with
  | w :: _ => w
  | [] => Config.hostWord s.draws

/-- The state with the coming cycle's word taken: the placed word removed, or the draw counted; log 3, log 4. -/
def State.consume (s : State) : State :=
  match s.hostWords with
  | _ :: ws => { s with hostWords := ws }
  | [] => { s with draws := s.draws + 1 }

/-- The state in which the host drives `w` in the coming cycle, in place of whatever it would have driven. -/
def State.placeWord (w : CycleWord) (s : State) : State := { s with hostWords := w :: s.hostWords.tail }

end Sys2Proof.Machine
end

