-- ==== Sys2Proof/Machine/Process.lean ====
section
/-! DEFINITION. PROCESS and PROCESS_READ (spec 40_process.md R56 to R63, 41_read.md R67). Both drive their outputs by the
same rules before the first RESET too, where 70_reset_and_hazards.md R103 leaves them unspecified. DESIGN CHOICE: log 15;
unsafe. -/

namespace Sys2Proof.Machine

/-- PROCESS (R56): the table step counting from `acc`; `read_out` is 0x00 (R68). -/
def execProcess (sw b a : Bit) (s : State) : Result := processFrom s.acc 0x00#8 sw b a s

/-- PROCESS_READ (R67): the read byte of the registers as they stood, then the table step counting from 0. -/
def execProcessRead (sw b a : Bit) (s : State) : Result :=
  processFrom 0#7 (readByte s.swState s.acc) sw b a s

end Sys2Proof.Machine
end

