-- ==== Sys2Proof/Machine/Read.lean ====
section
/-! DEFINITION. READ and NOP (spec 41_read.md R64 to R66, R68). -/

namespace Sys2Proof.Machine

/-- NOP (R66): no register written, both outputs 0x00. Also before the first RESET, where 70_reset_and_hazards.md R103 leaves
the outputs unspecified. DESIGN CHOICE: log 15; unsafe. -/
def execNop (s : State) : Result := .next (s.drive 0x00#8 0x00#8)

/-- READ (R64): the read byte of the registers as they stood, `acc` cleared, status 0x00. Also before the first RESET, where
70_reset_and_hazards.md R103 leaves the outputs unspecified. DESIGN CHOICE: log 15; unsafe. -/
def execRead (s : State) : Result := .next (s.clearAcc.drive 0x00#8 (readByte s.swState s.acc))

end Sys2Proof.Machine
end

