-- ==== Sys2Proof/Machine/Reset.lean ====
section
/-! DEFINITION. RESET (spec 70_reset_and_hazards.md R101). -/

namespace Sys2Proof.Machine

/-- RESET (R101): the three registers to their reset values (10_state.md R28), both outputs 0x00, from any state. -/
def execReset (s : State) : Result := .next ((s.writeRegs fsmStart 0#7 0#1).drive 0x00#8 0x00#8)

end Sys2Proof.Machine
end

