-- ==== Sys2Proof/Machine/Dispatch.lean ====
section
/-! DEFINITION. The effect of each command: one arm per constructor of `Instr`. -/

namespace Sys2Proof.Machine

-- The command of one cycle (spec 30_encoding.md R51), in the order of opcode_table.json.
def exec (i : Instr) (s : State) : Host.Outcome State Fault Refusal :=
  match i with
  | .reset => Sys2Proof.Machine.execReset s
  | .nop => Sys2Proof.Machine.execNop s
  | .process sw b a => Sys2Proof.Machine.execProcess sw b a s
  | .read => Sys2Proof.Machine.execRead s
  | .processRead sw b a => Sys2Proof.Machine.execProcessRead sw b a s

end Sys2Proof.Machine
end

