-- ==== Sys2Proof/Machine/Step.lean ====
section
/-! DEFINITION. One clock cycle (spec 00_scope.md R12, 70_reset_and_hazards.md R112). -/

namespace Sys2Proof.Machine

/-- `Step(TABLE, S, W)` (R12): the command that `w` decodes to, on the registers of `s`; the outputs stand in the next
state. -/
def cycle (w : CycleWord) (s : State) : Host.Outcome State Fault Refusal := exec (decode w) s

/-- One clock cycle, one rising edge of `clk`: the word on the input ports is taken and its command runs. Nothing of the
model depends on the length of a cycle (R112); log 12. -/
def step (s : State) : Host.Outcome State Fault Refusal := cycle s.nextWord s.consume

/-- `s` with the instruction whose bits are `w` on the input ports in the coming cycle. The ports carry the six bits of
the cycle input word (30_encoding.md R42). -/
def State.withFetchWord (s : State) (nbits w : Nat) : State := s.placeWord (BitVec.ofNat 6 (w % 2 ^ nbits))

end Sys2Proof.Machine
end

