-- ==== Sys2Proof/Machine/Platform.lean ====
section
/-! DEFINITION. A platform of several instances, one per physical encoder (spec 60_exceptions.md R98). -/

namespace Sys2Proof.Machine

/-- The instances of a platform. Each has its own `TABLE` and its own registers; they share nothing (R98). -/
abbrev Platform := List State

/-- What one command to one instance of a platform answers. -/
abbrev PlatformResult := Host.Outcome Platform Fault Refusal

/-- One cycle of instance `k`, with the command `i` (R98). The other instances take no cycle: each has its cycles on its
own, and a platform's run is any interleaving of them. Where the platform has no instance `k`, nobody takes the command.
DESIGN CHOICE: log 13; safe. -/
def Platform.command (k : Nat) (i : Instr) (p : Platform) : PlatformResult :=
  match p[k]? with
  | none => .next p
  | some s =>
    match exec i s with
    | .next s' => .next (p.set k s')
    | .fault r => .fault r
    | .refused r => .refused r

end Sys2Proof.Machine
end

