-- ==== Sys2Proof/Machine/Stream.lean ====
section
/-! DEFINITION. Command streams (spec 30_encoding.md R54, R55): the written form of commands, the pseudo-commands and
their expansions. A pseudo-command has no encoding of its own; it is read as the commands it expands to (R55). Which
characters separate words is the model's reading of R54. DESIGN CHOICE: log 14; safe. -/

namespace Sys2Proof.Machine

/-- PROCESS with the pattern and the raw switch level a line writes (R54). -/
def processLine (p : PinPattern) (sw : Bit) : Instr := .process sw (p.extractLsb' 1 1) (p.extractLsb' 0 1)

/-- PROCESS_READ with the pattern and the raw switch level a line writes (R54). -/
def processReadLine (p : PinPattern) (sw : Bit) : Instr := .processRead sw (p.extractLsb' 1 1) (p.extractLsb' 0 1)

/-- `FEED <BA1> ... <BAn>, <SW>` (R55): one PROCESS per pattern, in order. -/
def feed (ps : List PinPattern) (sw : Bit) : List Instr := ps.map fun p => processLine p sw

/-- `REPEAT <n>` of some lines (R55): `n` copies, in order. -/
def repeatLines : Nat → List Instr → List Instr
  | 0, _ => []
  | n + 1, ls => ls ++ repeatLines n ls

/-- `IDLE <n>` (R55): `n` NOP lines. -/
def idle (n : Nat) : List Instr := repeatLines n [.nop]

/-- A piece of a written command stream. -/
inductive Token where
  | word (cs : List Char)
  | comma
  | openBrace
  | closeBrace
  | newline
  deriving DecidableEq, Repr

/-- The word collected so far, ahead of what follows it. -/
def endWord (w : List Char) (ts : List Token) : List Token := if w = [] then ts else .word w.reverse :: ts

/-- The tokens of a text: `w` holds the characters of the word being read, last first, and `comment` says whether a `;`
has been read on this line (R54: text after `;` is a comment). Characters 123 and 125 are the braces of REPEAT. -/
def lex : (w : List Char) → (comment : Bool) → List Char → List Token
  | w, _, [] => endWord w []
  | w, comment, c :: cs =>
    if c = '\n' then endWord w (.newline :: lex [] false cs)
    else if comment then lex w true cs
    else if c = ';' then endWord w (lex [] true cs)
    else if c = ' ' then endWord w (lex [] false cs)
    else if c = ',' then endWord w (.comma :: lex [] false cs)
    else if c = Char.ofNat 123 then endWord w (.openBrace :: lex [] false cs)
    else if c = Char.ofNat 125 then endWord w (.closeBrace :: lex [] false cs)
    else lex (c :: w) false cs

/-- A binary digit. -/
def readBit : List Char → Option Bit
  | ['0'] => some 0#1
  | ['1'] => some 1#1
  | _ => none

/-- A pin pattern `BA`: B first, then A (00_scope.md R9). -/
def readPattern : List Char → Option PinPattern
  | [b, a] =>
    match readBit [b], readBit [a] with
    | some vb, some va => some (pinPattern vb va)
    | _, _ => none
  | _ => none

/-- The value of a decimal digit. -/
def digit (c : Char) : Option Nat := if '0' ≤ c ∧ c ≤ '9' then some (c.toNat - 48) else none

/-- A decimal number, with the value `n` of the digits before. -/
def readNatFrom (n : Nat) : List Char → Option Nat
  | [] => some n
  | c :: cs =>
    match digit c with
    | some d => readNatFrom (10 * n + d) cs
    | none => none

/-- A count of REPEAT or IDLE. -/
def readNat : List Char → Option Nat
  | [] => none
  | cs => readNatFrom 0 cs

/-- The operands `<BA>, <SW>` of PROCESS and PROCESS_READ. -/
def readOperands : List Token → Option (PinPattern × Bit × List Token)
  | .word p :: .comma :: .word sw :: ts =>
    match readPattern p, readBit sw with
    | some vp, some vs => some (vp, vs, ts)
    | _, _ => none
  | _ => none

/-- The operands `<BA1> ... <BAn>, <SW>` of FEED. -/
def readPatterns : List Token → Option (List PinPattern × Bit × List Token)
  | .word p :: .comma :: .word sw :: ts =>
    match readPattern p, readBit sw with
    | some vp, some vs => some ([vp], vs, ts)
    | _, _ => none
  | .word p :: ts =>
    match readPattern p, readPatterns ts with
    | some vp, some (vps, vs, rest) => some (vp :: vps, vs, rest)
    | _, _ => none
  | _ => none

/-- Whether a line may end here: one command a line (R54), or the end of the text or of a REPEAT body. -/
def lineEnds : List Token → Bool
  | [] => true
  | .newline :: _ => true
  | .closeBrace :: _ => true
  | _ => false

/-- The commands of the lines up to the end of the text or to a closing brace, which is left in the rest. The first
argument bounds the number of lines and braces read; the number of tokens plus one is always enough. A line with no
command, blank or holding only a comment, is skipped: R54 says only that a command stands alone on its line.
DESIGN CHOICE: log 14; safe. -/
def parseLines : Nat → List Token → Option (List Instr × List Token)
  | 0, _ => none
  | _ + 1, [] => some ([], [])
  | _ + 1, .closeBrace :: ts => some ([], .closeBrace :: ts)
  | fuel + 1, .newline :: ts => parseLines fuel ts
  | fuel + 1, .word w :: ts =>
    let line : Option (List Instr × List Token) :=
      if w = ['R', 'E', 'S', 'E', 'T'] then some ([.reset], ts)
      else if w = ['N', 'O', 'P'] then some ([.nop], ts)
      else if w = ['R', 'E', 'A', 'D'] then some ([.read], ts)
      else if w = ['P', 'R', 'O', 'C', 'E', 'S', 'S'] then
        match readOperands ts with
        | some (p, sw, rest) => some ([processLine p sw], rest)
        | none => none
      else if w = ['P', 'R', 'O', 'C', 'E', 'S', 'S', '_', 'R', 'E', 'A', 'D'] then
        match readOperands ts with
        | some (p, sw, rest) => some ([processReadLine p sw], rest)
        | none => none
      else if w = ['F', 'E', 'E', 'D'] then
        match readPatterns ts with
        | some (ps, sw, rest) => some (feed ps sw, rest)
        | none => none
      else if w = ['I', 'D', 'L', 'E'] then
        match ts with
        | .word n :: rest => (readNat n).map fun k => (idle k, rest)
        | _ => none
      else if w = ['R', 'E', 'P', 'E', 'A', 'T'] then
        match ts with
        | .word n :: .openBrace :: body =>
          match readNat n, parseLines fuel body with
          | some k, some (is, .closeBrace :: rest) => some (repeatLines k is, rest)
          | _, _ => none
        | _ => none
      else none
    match line with
    | some (is, rest) =>
      if lineEnds rest then
        match parseLines fuel rest with
        | some (js, rest') => some (is ++ js, rest')
        | none => none
      else none
    | none => none
  | _ + 1, .comma :: _ => none
  | _ + 1, .openBrace :: _ => none

/-- The commands of a written command stream (R54, R55), or none where the text is not one. -/
def assemble (text : List Char) : Option (List Instr) :=
  match parseLines ((lex [] false text).length + 1) (lex [] false text) with
  | some (is, []) => some is
  | _ => none

/-- A binary digit, written. -/
def writeBit (v : Bit) : Char := if v = 1#1 then '1' else '0'

/-- The line of a command (R54). -/
def writeLine : Instr → List Char
  | .reset => ['R', 'E', 'S', 'E', 'T']
  | .nop => ['N', 'O', 'P']
  | .process s b a => ['P', 'R', 'O', 'C', 'E', 'S', 'S', ' ', writeBit b, writeBit a, ',', ' ', writeBit s]
  | .read => ['R', 'E', 'A', 'D']
  | .processRead s b a =>
    ['P', 'R', 'O', 'C', 'E', 'S', 'S', '_', 'R', 'E', 'A', 'D', ' ', writeBit b, writeBit a, ',', ' ', writeBit s]

/-- The lines of a command stream, each ended by a newline. -/
def writeLines : List Instr → List Char
  | [] => []
  | i :: is => writeLine i ++ '\n' :: writeLines is

/-- A hexadecimal digit, written. -/
def writeHexDigit (v : BitVec 4) : Char :=
  if v.toNat < 10 then Char.ofNat (48 + v.toNat) else Char.ofNat (55 + v.toNat)

/-- The encoding of a line as two hexadecimal digits (R54). -/
def writeHex (i : Instr) : List Char :=
  [writeHexDigit ((encodeByte i).extractLsb' 4 4), writeHexDigit ((encodeByte i).extractLsb' 0 4)]

end Sys2Proof.Machine
end

