-- ==== Sys2Proof/Safety.lean ====
section
/-! DEFINITION. The terms claims are stated in: the legal states, runs of commands, what a host counts along a run, and
gray-code walks (spec 42_transition_tables.md section 4). -/

namespace Sys2Proof.Safety

open Sys2Proof.Machine

/-- `fsm_state` holds a legal value of the instance's table (10_state.md R20). -/
abbrev Legal (s : State) : Prop := fsmLegal s.table s.fsmState = true

/-- The status byte is one of the values 30_encoding.md R48 lists. -/
abbrev StatusInRange (b : Byte) : Prop :=
  b = 0x00#8 ∨ b = 0x01#8 ∨ b = 0x02#8 ∨ b = 0x04#8 ∨ b = 0x05#8 ∨ b = 0x06#8

/-- The invariant of the block: a legal `fsm_state`, a status byte in range, and a status byte that reports the switch
pressed only while `sw_state` does (R20, R48). -/
abbrev BlockInv (s : State) : Prop :=
  Legal s ∧ StatusInRange s.statusOut ∧ (statusSwitch s.statusOut = 1#1 → s.swState = 1#1)

/-- Commands one per cycle, in order (20_memory.md R37); the first stop ends the run. -/
def run : List Instr → State → Result
  | [], s => .next s
  | i :: is, s =>
    match exec i s with
    | .next s' => run is s'
    | .fault r => .fault r
    | .refused r => .refused r

/-- The events a status byte reports: +1 for CW, -1 for CCW (30_encoding.md R46, R48). -/
def statusEvents (b : Byte) : Int :=
  if statusDir b = 1#2 then 1 else if statusDir b = 2#2 then -1 else 0

/-- `E` of 42_transition_tables.md section 4: the net number of events the host sees in the status bytes of a run. -/
def netEvents : List Instr → State → Int
  | [], _ => 0
  | i :: is, s =>
    match exec i s with
    | .next s' => statusEvents s'.statusOut + netEvents is s'
    | .fault _ => 0
    | .refused _ => 0

/-- The direction codes the status bytes of a run report, one per command, up to the first stop (30_encoding.md R48). -/
def reported : List Instr → State → List (BitVec 2)
  | [], _ => []
  | i :: is, s =>
    match exec i s with
    | .next s' => statusDir s'.statusOut :: reported is s'
    | .fault _ => []
    | .refused _ => []

/-- What the host reads out of the accumulator in a run, as a count modulo 2^7: the sum of bits 6..0 of the read bytes.
A cycle without a READ drives 0x00 (41_read.md R68) and adds nothing. -/
def drained : List Instr → State → Acc
  | [], _ => 0#7
  | i :: is, s =>
    match exec i s with
    | .next s' => s'.readOut.extractLsb' 0 7 + drained is s'
    | .fault _ => 0#7
    | .refused _ => 0#7

/-- The pin pattern a command samples, if it samples one (10_state.md R27). -/
def sampled : Instr → Option PinPattern
  | .reset => none
  | .nop => none
  | .process _ b a => some (pinPattern b a)
  | .read => none
  | .processRead _ b a => some (pinPattern b a)

/-- The patterns a run samples, in order. -/
def patterns (is : List Instr) : List PinPattern := is.filterMap sampled

/-- The place of a pattern in the clockwise order `00 -> 10 -> 11 -> 01 -> 00`. -/
def ringPlace (p : PinPattern) : BitVec 2 := (p.extractLsb' 0 1) ++ (p.extractLsb' 0 1 ^^^ p.extractLsb' 1 1)

/-- The quarter step from one pattern to another: +1 clockwise, -1 counter-clockwise, 0 where they are equal or differ
in both bits. -/
def quarterStep (p q : PinPattern) : Int :=
  if ringPlace q - ringPlace p = 1#2 then 1 else if ringPlace q - ringPlace p = 3#2 then -1 else 0

/-- `D` of 42_transition_tables.md section 4: the net quarter steps along a list of patterns. -/
def netQuarters : List PinPattern → Int
  | p :: q :: rest => quarterStep p q + netQuarters (q :: rest)
  | _ => 0

/-- A gray-code walk: each pattern equals the one before it or differs from it in one bit. -/
def grayWalk : List PinPattern → Bool
  | p :: q :: rest => (p ^^^ q != 0b11#2) && grayWalk (q :: rest)
  | _ => true

/-- `k` of 42_transition_tables.md section 4: quarter steps per event. -/
def quartersPerEvent : Table → Int
  | .halfStep => 2
  | .fullStep => 4

/-- Whether a table holds a state at a pattern in a walk from `00`, and the offset `k*E - D` there
(42_transition_tables.md R86). -/
def exactOffset : Table → FsmCode → PinPattern → Option Int
  | .fullStep, s, p =>
    if s = fsmStart ∧ p = 0b00#2 then some 0
    else if s = Full.cwBegin ∧ p = 0b10#2 then some (-1)
    else if s = Full.cwNext ∧ p = 0b11#2 then some (-2)
    else if s = Full.cwFinal ∧ p = 0b01#2 then some (-3)
    else if s = Full.ccwBegin ∧ p = 0b01#2 then some 1
    else if s = Full.ccwNext ∧ p = 0b11#2 then some 2
    else if s = Full.ccwFinal ∧ p = 0b10#2 then some 3
    else none
  | .halfStep, s, p =>
    if s = fsmStart ∧ p = 0b00#2 then some 0
    else if s = Half.cwBegin ∧ p = 0b10#2 then some (-1)
    else if s = Half.ccwBegin ∧ p = 0b01#2 then some 1
    else if s = Half.startMirror ∧ p = 0b11#2 then some 0
    else if s = Half.cwBeginMirror ∧ p = 0b01#2 then some (-1)
    else if s = Half.ccwBeginMirror ∧ p = 0b10#2 then some 1
    else none

/-- The range of `k*E - D` along a walk whose first pattern is `p` (42_transition_tables.md R88). -/
def walkBounds : Table → PinPattern → Int × Int
  | .fullStep, p =>
    if p = 0b00#2 then (-3, 3) else if p = 0b01#2 then (-4, 2) else if p = 0b10#2 then (-2, 4) else (-5, 5)
  | .halfStep, p =>
    if p = 0b00#2 then (-1, 1) else if p = 0b01#2 then (-2, 0) else if p = 0b10#2 then (0, 2) else (-1, 1)

/-- By how much `k*E - D` of a walk that starts at `p0` can differ from `exactOffset` at the same state and pattern: the
walk has its zero at `p0`, and a full-step walk from `11` can start a cycle in either direction
(42_transition_tables.md R88). -/
def walkShifts : Table → PinPattern → List Int
  | .halfStep, p0 => if p0 = 0b01#2 then [-1] else if p0 = 0b10#2 then [1] else [0]
  | .fullStep, p0 =>
    if p0 = 0b00#2 then [0] else if p0 = 0b01#2 then [-1] else if p0 = 0b10#2 then [1] else [-2, 2]

/-- Whether a walk that starts at `p0` can stand in state `s` at pattern `p` with `k*E - D = o`: an exact offset shifted, or
full-step START still waiting at `11` (42_transition_tables.md R88). -/
def walkOffset (t : Table) (p0 : PinPattern) (s : FsmCode) (p : PinPattern) (o : Int) : Prop :=
  (∃ c ∈ walkShifts t p0, exactOffset t s p = some (o - c)) ∨
  (t = .fullStep ∧ p0 = 0b11#2 ∧ s = fsmStart ∧ p = 0b11#2 ∧ o = 0)

/-- The rest positions of a table (00_scope.md glossary, 42_transition_tables.md R86 (a)). -/
def restPattern : Table → PinPattern → Bool
  | .halfStep, p => p == 0b00#2 || p == 0b11#2
  | .fullStep, p => p == 0b00#2

/-- The switch level a run leaves in `sw_state` (10_state.md R23): the inverse of the level the latest PROCESS or
PROCESS_READ sampled, 0 from a RESET on, and what was there before where the run has none of them. -/
def switchAfter : List Instr → Bit → Bit
  | [], v => v
  | .reset :: is, _ => switchAfter is 0#1
  | .nop :: is, v => switchAfter is v
  | .process s _ _ :: is, _ => switchAfter is (~~~s)
  | .read :: is, v => switchAfter is v
  | .processRead s _ _ :: is, _ => switchAfter is (~~~s)

/-- Whether a command is the NOP. -/
def isNop : Instr → Bool
  | .reset => false
  | .nop => true
  | .process _ _ _ => false
  | .read => false
  | .processRead _ _ _ => false

/-- Whether a command is the RESET. -/
def isReset : Instr → Bool
  | .reset => true
  | .nop => false
  | .process _ _ _ => false
  | .read => false
  | .processRead _ _ _ => false

/-- Whether a command issues READ: READ and PROCESS_READ. -/
def issuesRead : Instr → Bool
  | .reset => false
  | .nop => false
  | .process _ _ _ => false
  | .read => true
  | .processRead _ _ _ => true

/-- Whether a command issues PROCESS: PROCESS and PROCESS_READ. -/
def issuesProcess : Instr → Bool
  | .reset => false
  | .nop => false
  | .process _ _ _ => true
  | .read => false
  | .processRead _ _ _ => true

end Sys2Proof.Safety
end

