-- ==== Sys2Proof/Certificates/Slice0/Obligations.lean ====
section
/-! DEFINITION. The statements for the provers. A docstring names the rule of the spec a statement formalises; where it
rests on a convention of the model, it names the log entry. `Legal s` is a premise exactly where a command reads
`fsm_state`. A statement over every state covers `State.powerUp` too: what it says of the outputs of a command issued before
the first RESET, which 70_reset_and_hazards.md section 1 leaves unspecified, is the model's choice (log 15). -/

open Sys2Proof Sys2Proof.Machine Sys2Proof.Safety

/-! ### Encoding -/

/-- 30_encoding.md R42, R43, R51: the words written out from the spec's encodings decode to their commands. -/
def Obligations.SampleWordsDecode : Prop :=
  decode 0x20#6 = .reset ∧ decode 0x3F#6 = .reset ∧ decode 0x00#6 = .nop ∧ decode 0x07#6 = .nop ∧
  decode 0x0E#6 = .process 1#1 1#1 0#1 ∧ decode 0x09#6 = .process 0#1 0#1 1#1 ∧
  decode 0x10#6 = .read ∧ decode 0x17#6 = .read ∧ decode 0x1D#6 = .processRead 1#1 0#1 1#1 ∧
  decode 0x1B#6 = .processRead 0#1 1#1 1#1

/-- 30_encoding.md section 2: the command follows `rst` and the two strobes, the pins are operands of PROCESS and
PROCESS_READ, and the bits a command ignores do not change it. -/
def Obligations.CommandFollowsStrobes : Prop :=
  (∀ x : BitVec 5, decode (1#1 ++ x) = .reset) ∧
  (∀ x : BitVec 3, decode (0b000#3 ++ x) = .nop) ∧
  (∀ s b a : Bit, decode (0b001#3 ++ s ++ b ++ a) = .process s b a) ∧
  (∀ x : BitVec 3, decode (0b010#3 ++ x) = .read) ∧
  (∀ s b a : Bit, decode (0b011#3 ++ s ++ b ++ a) = .processRead s b a)

/-- 30_encoding.md section 2: which port stands at which bit of the cycle input word. -/
def Obligations.PortsAtTheirBits : Prop :=
  ∀ p : Ports,
    p.word.extractLsb' 0 1 = p.pinA ∧ p.word.extractLsb' 1 1 = p.pinB ∧ p.word.extractLsb' 2 1 = p.pinSw ∧
    p.word.extractLsb' 3 1 = p.processEn ∧ p.word.extractLsb' 4 1 = p.readEn ∧ p.word.extractLsb' 5 1 = p.rst

/-- 30_encoding.md section 5: every word of `W` is the word of exactly one row of the command map, the row of the command
it decodes to. -/
def Obligations.EveryWordIsOneCommand : Prop :=
  ∀ w : CycleWord, opRows.filter (fun r => r.takes w) = [(decode w).row]

/-- Decode and encode agree: no operand bit of any command is dropped, as a word and as a byte of a command stream. -/
def Obligations.DecodeOfEncode : Prop :=
  ∀ i : Instr, i.wellFormed = true → decode (encode i) = i ∧ decodeByte (encodeByte i) = .ok i

/-- Decode and encode agree on whole command streams. -/
def Obligations.StreamDecodeOfEncode : Prop :=
  ∀ is : List Instr, decodeStream (encodeStream is) = .ok is

/-- A byte is a command exactly when it holds a cycle input word, bits 7..6 zero (log 11). -/
def Obligations.BytesOutsideTheWordRejected : Prop :=
  ∀ b : Byte,
    (b.toNat < 64 → decodeByte b = .ok (decode (b.extractLsb' 0 6))) ∧
    (64 ≤ b.toNat → decodeByte b = .error .notACycleWord)

/-! ### Running a cycle -/

/-- A step runs the decoded command: on the word the host has placed next, or, where it has placed none, on a free draw
(log 3). What the step adds around the command is that the placed word is gone, or the draw is counted. -/
def Obligations.StepRunsDecodedCommand : Prop :=
  ∀ (s : State) (i : Instr), i.wellFormed = true → decode s.nextWord = i →
    step s = exec i s.consume ∧
    (∀ w ws, s.hostWords = w :: ws → s.nextWord = w ∧ s.consume = { s with hostWords := ws }) ∧
    (s.hostWords = [] → s.nextWord = Config.hostWord s.draws ∧ s.consume = { s with draws := s.draws + 1 })

/-- An instruction placed on the input ports is the one the next step runs, in place of the word the host would have driven.
The list of placed words is the model's choice (log 3), and so is the byte form of an instruction (log 11). -/
def Obligations.PlacedWordRunsNext : Prop :=
  ∀ (s : State) (w : Nat) (i : Instr), decodeTableWord 8 w = some i →
    step (s.withFetchWord 8 w) = exec i { s with hostWords := s.hostWords.tail }

/-- 20_memory.md section 4: commands take effect one per cycle, in the order the host drives them. The machine's steps
over placed words are the run of their commands. The list of placed words is the model's choice (log 3). -/
def Obligations.PlacedWordsRunInOrder : Prop :=
  ∀ (s : State) (ws rest : List CycleWord), s.hostWords = ws ++ rest →
    core.run ws.length s = run (ws.map decode) { s with hostWords := rest }

/-! ### The effect of each command -/

/-- 70_reset_and_hazards.md section 1, 60_exceptions.md section 3: whenever `rst` is 1, whatever the strobes and the pins
are, and from any state, the cycle is a RESET. `sw_state` resets to 0 by the spec's decision D6 (log 8). -/
def Obligations.ResetEffect : Prop :=
  ∀ s : State,
    exec .reset s =
      .next { s with fsmState := 0x0#4, acc := 0#7, swState := 0#1, statusOut := 0x00#8, readOut := 0x00#8 } ∧
    ∀ w : CycleWord, CycleWord.rst w = 1#1 → cycle w s = exec .reset s

/-- 41_read.md section 2: NOP writes no register and drives both outputs 0x00 (before the first RESET: log 15). -/
def Obligations.NopEffect : Prop :=
  ∀ s : State, exec .nop s = .next { s with statusOut := 0x00#8, readOut := 0x00#8 }

/-- 41_read.md R64: READ returns the switch and the accumulator as they stood and clears the accumulator, for every one
of its words. -/
def Obligations.ReadEffect : Prop :=
  (∀ x : BitVec 3, decode (0b010#3 ++ x) = .read) ∧
  ∀ s : State,
    exec .read s =
      .next { s with
        acc := 0#7
        statusOut := 0x00#8
        readOut := (s.swState.setWidth 8 <<< 7) ||| s.acc.setWidth 8 }

/-- 40_process.md R56: PROCESS, in the bytes of its pseudocode: `e` is the byte at the ROM address `(s << 2) | p`. -/
def Obligations.ProcessEffect : Prop :=
  (∀ sw b a : Bit, decode (0b001#3 ++ sw ++ b ++ a) = .process sw b a) ∧
  ∀ (s : State) (sw b a : Bit), Legal s →
    ∃ e : Byte, memRead s.table (romAddress s.fsmState ((b.setWidth 2 <<< 1) ||| a.setWidth 2)) = some e ∧
      exec (.process sw b a) s =
        .next { s with
          fsmState := e.extractLsb' 0 4
          acc :=
            if e.extractLsb' 4 2 = 1#2 then s.acc + 1#7
            else if e.extractLsb' 4 2 = 2#2 then s.acc - 1#7
            else s.acc
          swState := ~~~sw
          statusOut := ((~~~sw).setWidth 8 <<< 2) ||| (e.extractLsb' 4 2).setWidth 8
          readOut := 0x00#8 }

/-- 41_read.md section 3: PROCESS_READ, in the bytes of its pseudocode. That READ comes before PROCESS is the spec's
decision D4. -/
def Obligations.ProcessReadEffect : Prop :=
  (∀ sw b a : Bit, decode (0b011#3 ++ sw ++ b ++ a) = .processRead sw b a) ∧
  ∀ (s : State) (sw b a : Bit), Legal s →
    ∃ e : Byte, memRead s.table (romAddress s.fsmState ((b.setWidth 2 <<< 1) ||| a.setWidth 2)) = some e ∧
      exec (.processRead sw b a) s =
        .next { s with
          fsmState := e.extractLsb' 0 4
          acc := if e.extractLsb' 4 2 = 1#2 then 0x01#7 else if e.extractLsb' 4 2 = 2#2 then 0x7F#7 else 0x00#7
          swState := ~~~sw
          statusOut := ((~~~sw).setWidth 8 <<< 2) ||| (e.extractLsb' 4 2).setWidth 8
          readOut := (s.swState.setWidth 8 <<< 7) ||| s.acc.setWidth 8 }

/-- 41_read.md section 3: PROCESS_READ is READ followed at once by PROCESS, with READ's read byte (decision D4). -/
def Obligations.ProcessReadIsReadThenProcess : Prop :=
  ∀ (s : State) (sw b a : Bit), Legal s →
    ∃ r t : State, exec .read s = .next r ∧ exec (.process sw b a) r = .next t ∧
      exec (.processRead sw b a) s = .next { t with readOut := r.readOut }

/-- 10_state.md section 2, I3: PROCESS and PROCESS_READ fault on a value of `fsm_state` that names no state of the table.
That the other commands do not is the model's reading (log 5). -/
def Obligations.IllegalStateFaults : Prop :=
  ∀ (s : State) (sw b a : Bit),
    ((s.table = .halfStep ∧ 6 ≤ s.fsmState.toNat) ∨ (s.table = .fullStep ∧ 7 ≤ s.fsmState.toNat)) →
    exec (.process sw b a) s = .fault .illegalFsmState ∧ exec (.processRead sw b a) s = .fault .illegalFsmState

/-! ### The parts of PROCESS -/

/-- 30_encoding.md R44: the pin pattern is `(pin_b << 1) | pin_a`; the switch level is not part of it. -/
def Obligations.PinPatternOfLevels : Prop :=
  ∀ s b a : Bit,
    (pinPattern b a).toNat = 2 * b.toNat + a.toNat ∧
    (pinPattern b a).extractLsb' 1 1 = b ∧ (pinPattern b a).extractLsb' 0 1 = a ∧
    sampled (.process s b a) = some (pinPattern b a) ∧ sampled (.processRead s b a) = some (pinPattern b a)

/-- 40_process.md R58: every PROCESS stores the inverse of the sampled switch level, whatever `sw_state` held. -/
def Obligations.SwitchStoredInverted : Prop :=
  ∀ (s : State) (v sw b a : Bit), Legal s →
    (∃ t, exec (.process sw b a) { s with swState := v } = .next t ∧ t.swState = ~~~sw) ∧
    (∃ t, exec (.processRead sw b a) { s with swState := v } = .next t ∧ t.swState = ~~~sw)

/-- 40_process.md R59: the next state is `e[3:0]` and the emitted code `e[5:4]` of the entry at `fsm_state` and `p`; they
depend on nothing else of the state or the operands; and the code is gone after the cycle. -/
def Obligations.FsmStepReadsTheTable : Prop :=
  ∀ (s u : State) (sw sw' b a : Bit), Legal s → u.table = s.table → u.fsmState = s.fsmState →
    ∃ (e : Byte) (t v : State),
      memRead s.table (romAddress s.fsmState (pinPattern b a)) = some e ∧
      exec (.process sw b a) s = .next t ∧ t.fsmState = e.extractLsb' 0 4 ∧ statusDir t.statusOut = e.extractLsb' 4 2 ∧
      exec (.process sw' b a) u = .next v ∧ v.fsmState = t.fsmState ∧ statusDir v.statusOut = statusDir t.statusOut ∧
      ∃ n, exec .nop t = .next n ∧ statusDir n.statusOut = 0#2

/-- 40_process.md R60: the accumulator step, as a residue and as the signed count, which wraps at both ends. -/
def Obligations.AccumulatorStep : Prop :=
  ∀ (s : State) (sw b a : Bit), Legal s →
    ∃ t, exec (.process sw b a) s = .next t ∧
      (statusDir t.statusOut = 1#2 →
        t.acc = s.acc + 1#7 ∧ (s.acc ≠ 0x3F#7 → t.acc.toInt = s.acc.toInt + 1) ∧ (s.acc = 0x3F#7 → t.acc = 0x40#7)) ∧
      (statusDir t.statusOut = 2#2 →
        t.acc = s.acc - 1#7 ∧ (s.acc ≠ 0x40#7 → t.acc.toInt = s.acc.toInt - 1) ∧ (s.acc = 0x40#7 → t.acc = 0x3F#7)) ∧
      (statusDir t.statusOut = 0#2 → t.acc = s.acc)

/-- 40_process.md R61: the status byte is `(sw1 << 2) | dir`, bits 7..3 zero, and does not depend on `acc`. -/
def Obligations.StatusByteOfProcess : Prop :=
  ∀ (s : State) (v : Acc) (sw b a : Bit), Legal s →
    ∃ (e : Byte) (t u : State),
      memRead s.table (romAddress s.fsmState (pinPattern b a)) = some e ∧
      exec (.process sw b a) s = .next t ∧
      t.statusOut = (t.swState.setWidth 8 <<< 2) ||| (e.extractLsb' 4 2).setWidth 8 ∧
      t.statusOut.extractLsb' 3 5 = 0#5 ∧
      exec (.process sw b a) { s with acc := v } = .next u ∧ u.statusOut = t.statusOut

/-- 40_process.md R62: one PROCESS changes `acc` by at most one detent event, the one its status byte reports. -/
def Obligations.AtMostOneEvent : Prop :=
  ∀ (s : State) (sw b a : Bit), Legal s →
    ∃ t, exec (.process sw b a) s = .next t ∧
      (statusEvents t.statusOut = -1 ∨ statusEvents t.statusOut = 0 ∨ statusEvents t.statusOut = 1) ∧
      t.acc = s.acc + BitVec.ofInt 7 (statusEvents t.statusOut)

/-- 40_process.md section 3, corner case (a): a repeated pattern never emits, moves the state at most once, and that only
in the four cases the spec lists for each table. -/
def Obligations.RepeatedPatternSettles : Prop :=
  ∀ (s : State) (sw1 sw2 sw3 b a : Bit), Legal s →
    ∃ t u v : State, exec (.process sw1 b a) s = .next t ∧ exec (.process sw2 b a) t = .next u ∧
      exec (.process sw3 b a) u = .next v ∧
      statusDir u.statusOut = 0#2 ∧ u.acc = t.acc ∧ statusDir v.statusOut = 0#2 ∧ v.acc = t.acc ∧
      v.fsmState = u.fsmState ∧
      (u.fsmState ≠ t.fsmState ↔
        (s.table = .halfStep ∧
          ((s.fsmState = Half.ccwBegin ∨ s.fsmState = Half.cwBeginMirror) ∧ pinPattern b a = 0b10#2 ∨
           (s.fsmState = Half.cwBegin ∨ s.fsmState = Half.ccwBeginMirror) ∧ pinPattern b a = 0b01#2)) ∨
        (s.table = .fullStep ∧
          ((s.fsmState = Full.cwFinal ∨ s.fsmState = Full.ccwBegin) ∧ pinPattern b a = 0b10#2 ∨
           (s.fsmState = Full.cwBegin ∨ s.fsmState = Full.ccwFinal) ∧ pinPattern b a = 0b01#2)))

/-! ### READ and the outputs -/

/-- 30_encoding.md R49: bit 7 of the read byte is `sw_state` and bits 6..0 are `acc`, both as they stood at the start of
the cycle, for READ and for PROCESS_READ. -/
def Obligations.ReadByteFormat : Prop :=
  ∀ (i : Instr) (s : State), issuesRead i = true → (Legal s ∨ issuesProcess i = false) →
    ∃ t, exec i s = .next t ∧ t.readOut.extractLsb' 7 1 = s.swState ∧ t.readOut.extractLsb' 0 7 = s.acc ∧
      t.readOut = (s.swState.setWidth 8 <<< 7) ||| (s.acc.setWidth 8 &&& 0x7F#8)

/-- 30_encoding.md section 4: what the host reads in a read byte, and the spec's six examples. -/
def Obligations.HostReadsRotation : Prop :=
  (∀ r : Byte, -64 ≤ readDelta r ∧ readDelta r ≤ 63 ∧
    readDelta r = if r.toNat % 128 < 64 then (r.toNat % 128 : Int) else (r.toNat % 128 : Int) - 128) ∧
  (readDelta 0x01#8 = 1 ∧ readSwitch 0x01#8 = 0#1) ∧ (readDelta 0x7F#8 = -1 ∧ readSwitch 0x7F#8 = 0#1) ∧
  (readDelta 0x40#8 = -64 ∧ readSwitch 0x40#8 = 0#1) ∧ (readDelta 0x3F#8 = 63 ∧ readSwitch 0x3F#8 = 0#1) ∧
  (readDelta 0x80#8 = 0 ∧ readSwitch 0x80#8 = 1#1) ∧ (readDelta 0xC0#8 = -64 ∧ readSwitch 0xC0#8 = 1#1)

/-- 41_read.md section 4 (decision D11): an output whose command is not issued in the cycle is 0x00 (before the first RESET:
log 15). -/
def Obligations.OutputsZeroWhenNotDriven : Prop :=
  ∀ (i : Instr) (s t : State), exec i s = .next t →
    (issuesProcess i = false → t.statusOut = 0x00#8) ∧ (issuesRead i = false → t.readOut = 0x00#8)

/-- 30_encoding.md section 4: the status byte of PROCESS and PROCESS_READ reports the switch level stored in this cycle in
bit 2, nothing in bits 7..3, and only the six listed values. -/
def Obligations.StatusByteFormat : Prop :=
  ∀ (i : Instr) (s t : State), issuesProcess i = true → exec i s = .next t →
    t.statusOut.extractLsb' 2 1 = t.swState ∧ t.statusOut.extractLsb' 3 5 = 0#5 ∧ StatusInRange t.statusOut

/-- 41_read.md section 4, corner case (a): the second of two READs with no PROCESS and no RESET between returns rotation 0
and the same switch bit. -/
def Obligations.SecondReadReturnsZero : Prop :=
  ∀ (s : State) (is : List Instr), (∀ i ∈ is, issuesProcess i = false ∧ isReset i = false) →
    ∃ t u v : State, exec .read s = .next t ∧ run is t = .next u ∧ exec .read u = .next v ∧
      readDelta v.readOut = 0 ∧ readSwitch v.readOut = readSwitch t.readOut

/-- 10_state.md section 4: after any run of commands `sw_state` is the inverse of the level the latest PROCESS sampled; READ
returns it in bit 7 without clearing it, and PROCESS_READ returns it too. That it is 0 from a RESET on is 10_state.md
section 7, the spec's decision D6 (log 8). -/
def Obligations.SwitchHoldsLatestSample : Prop :=
  ∀ (s t : State) (is : List Instr), run is s = .next t →
    t.swState = switchAfter is s.swState ∧
    (∃ r, exec .read t = .next r ∧ readSwitch r.readOut = t.swState ∧ r.swState = t.swState) ∧
    (Legal t → ∀ sw b a, ∃ r, exec (.processRead sw b a) t = .next r ∧ readSwitch r.readOut = t.swState)

/-! ### Frames -/

/-- 10_state.md section 5, 20_memory.md section 1: no command changes `TABLE` or a byte of the ROM. Nor does a command touch
the model's own fields: the words the host has placed (log 3) and the count of draws (log 4). -/
def Obligations.CommandsKeepTableAndRom : Prop :=
  ∀ (i : Instr) (s t : State), exec i s = .next t →
    t.table = s.table ∧ (∀ addr, memRead t.table addr = memRead s.table addr) ∧
    t.hostWords = s.hostWords ∧ t.draws = s.draws

/-- 10_state.md section 6: the access table. `fsm_state` and `sw_state` change only in PROCESS, PROCESS_READ and RESET;
NOP changes no register; a PROCESS without an event does not change `acc`. -/
def Obligations.RegisterAccess : Prop :=
  ∀ (i : Instr) (s t : State), exec i s = .next t →
    (issuesProcess i = false → isReset i = false → t.fsmState = s.fsmState ∧ t.swState = s.swState) ∧
    (isNop i = true → t.acc = s.acc) ∧
    (issuesRead i = false → isReset i = false → statusDir t.statusOut = 0#2 → t.acc = s.acc) ∧
    (issuesRead i = true → issuesProcess i = false → t.acc = 0#7)

/-- 10_state.md section 2: `fsm_state` is hidden. A command that issues no PROCESS drives the same outputs whatever
`fsm_state` is, and leaves the other registers the same. -/
def Obligations.FsmStateHidden : Prop :=
  ∀ (i : Instr) (s : State) (f : FsmCode), issuesProcess i = false →
    ∃ t u : State, exec i s = .next t ∧ exec i { s with fsmState := f } = .next u ∧
      u.statusOut = t.statusOut ∧ u.readOut = t.readOut ∧ u.acc = t.acc ∧ u.swState = t.swState

/-- 60_exceptions.md section 6: a command to one instance has no effect on another, and its own instance does what it would
do alone. That the other instances take no cycle, and so keep even their outputs, is the model's choice (log 13). -/
def Obligations.InstancesIndependent : Prop :=
  ∀ (p : Platform) (k : Nat) (i : Instr) (s : State), p[k]? = some s →
    (Legal s ∨ issuesProcess i = false) →
    ∃ (q : Platform) (t : State), p.command k i = .next q ∧ exec i s = .next t ∧ q[k]? = some t ∧
      q.length = p.length ∧ ∀ j, j ≠ k → q[j]? = p[j]?

/-! ### Reset and invariants -/

/-- 10_state.md section 7: the register values after reset, for either table. `sw_state` = 0 is the spec's decision D6
(log 8); the outputs are those of a RESET cycle (log 2). -/
def Obligations.ResetStateValues : Prop :=
  (State.reset.fsmState = 0x0#4 ∧ State.reset.acc = 0#7 ∧ State.reset.swState = 0#1 ∧
    State.reset.statusOut = 0x00#8 ∧ State.reset.readOut = 0x00#8) ∧
  ∀ t : Table, (State.resetFor t).table = t ∧ exec .reset (State.resetFor t) = .next (State.resetFor t)

/-- 70_reset_and_hazards.md section 1: whatever the registers hold after power-up (log 9), one RESET gives the state after
reset. -/
def Obligations.PowerUpNeedsOneReset : Prop := exec .reset State.powerUp = .next State.reset

/-- The invariant holds after reset, for either table. -/
def Obligations.InvariantAtReset : Prop := BlockInv State.reset ∧ ∀ t : Table, BlockInv (State.resetFor t)

/-- 10_state.md section 2, 30_encoding.md section 4: every step, whatever the host drives, keeps `fsm_state` legal and the
status byte in range, and keeps `sw_state` pressed wherever the status byte reports a press. -/
def Obligations.InvariantKeptByStep : Prop :=
  ∀ s t : State, BlockInv s → step s = .next t → BlockInv t

/-- 60_exceptions.md R89: a run that starts with a RESET never stops, from any state and for every sequence of cycle input
words: every command is defined in every state that can be reached. -/
def Obligations.RunsAfterResetNeverStop : Prop :=
  ∀ (s : State) (ws : List CycleWord), ∃ t, run (.reset :: ws.map decode) s = .next t ∧ Legal t

/-! ### The tables -/

/-- 30_encoding.md section 3: an entry's byte holds the next state in bits 3..0, the direction code in bits 5..4 and zero
above, and the code is 0, 1 or 2 (log 6). -/
def Obligations.EntryByteFormat : Prop :=
  ∀ e : Entry, e.byte.extractLsb' 0 4 = e.next ∧ e.byte.extractLsb' 4 2 = e.dir.code ∧ e.byte.extractLsb' 6 2 = 0#2 ∧
    e.dir.code ≠ 3#2 ∧ e.byte.toNat = 16 * e.dir.code.toNat + e.next.toNat

/-- 42_transition_tables.md section 2: the 24 entries of the half-step table, and no others. The entries are the spec's
general knowledge (log 7). -/
def Obligations.HalfStepTableBytes : Prop :=
  ∀ addr : RomAddress, memRead .halfStep addr =
    [0x00#8, 0x01#8, 0x02#8, 0x03#8, 0x00#8, 0x01#8, 0x00#8, 0x23#8, 0x00#8, 0x00#8, 0x02#8, 0x13#8,
     0x00#8, 0x04#8, 0x05#8, 0x03#8, 0x10#8, 0x04#8, 0x03#8, 0x03#8, 0x20#8, 0x03#8, 0x05#8, 0x03#8][addr.toNat]?

/-- 42_transition_tables.md section 3: the 28 entries of the full-step table, and no others. The entries are the spec's
general knowledge (log 7). -/
def Obligations.FullStepTableBytes : Prop :=
  ∀ addr : RomAddress, memRead .fullStep addr =
    [0x00#8, 0x04#8, 0x02#8, 0x00#8, 0x10#8, 0x01#8, 0x00#8, 0x03#8, 0x00#8, 0x00#8, 0x02#8, 0x03#8,
     0x00#8, 0x01#8, 0x02#8, 0x03#8, 0x00#8, 0x04#8, 0x00#8, 0x06#8, 0x20#8, 0x00#8, 0x05#8, 0x06#8,
     0x00#8, 0x04#8, 0x05#8, 0x06#8][addr.toNat]?

/-- 42_transition_tables.md section 1: both tables are total and closed: at every legal state and pattern there is an
entry, its next state is legal, its direction code is not 3, and its top bits are zero. -/
def Obligations.TablesTotalAndClosed : Prop :=
  ∀ (t : Table) (s : FsmCode) (p : PinPattern), fsmLegal t s = true →
    ∃ e : Byte, memRead t (romAddress s p) = some e ∧ fsmLegal t (e.extractLsb' 0 4) = true ∧
      e.extractLsb' 4 2 ≠ 3#2 ∧ e.extractLsb' 6 2 = 0#2

/-- 42_transition_tables.md section 1: every legal state is reached from reset by PROCESS commands. -/
def Obligations.EveryLegalStateReachable : Prop :=
  ∀ (t : Table) (f : FsmCode), fsmLegal t f = true →
    ∃ (is : List Instr) (s : State), (∀ i ∈ is, issuesProcess i = true ∧ issuesRead i = false) ∧
      run is (State.resetFor t) = .next s ∧ s.fsmState = f

/-- 42_transition_tables.md section 4, emission positions: an event is emitted exactly from the listed states at the
listed patterns, and the state it leaves is the listed one. -/
def Obligations.EmissionPositions : Prop :=
  ∀ (s : State) (sw b a : Bit), Legal s →
    ∃ t, exec (.process sw b a) s = .next t ∧
      (statusDir t.statusOut ≠ 0#2 ↔
        (s.table = .halfStep ∧ pinPattern b a = 0b11#2 ∧ (s.fsmState = Half.cwBegin ∨ s.fsmState = Half.ccwBegin)) ∨
        (s.table = .halfStep ∧ pinPattern b a = 0b00#2 ∧
          (s.fsmState = Half.cwBeginMirror ∨ s.fsmState = Half.ccwBeginMirror)) ∨
        (s.table = .fullStep ∧ pinPattern b a = 0b00#2 ∧ (s.fsmState = Full.cwFinal ∨ s.fsmState = Full.ccwFinal))) ∧
      (statusDir t.statusOut ≠ 0#2 → pinPattern b a = 0b11#2 → t.fsmState = Half.startMirror) ∧
      (statusDir t.statusOut ≠ 0#2 → pinPattern b a = 0b00#2 → t.fsmState = fsmStart)

/-- 42_transition_tables.md section 4, two-bit jumps: from a state at a pattern its row maps to itself, the pattern that
differs in both bits emits nothing and leads to START or START_MIRROR as listed. -/
def Obligations.TwoBitJumps : Prop :=
  ∀ (s : State) (sw b a : Bit), Legal s →
    (∃ e, memRead s.table (romAddress s.fsmState (pinPattern b a)) = some e ∧ e.extractLsb' 0 4 = s.fsmState) →
    ∃ t, exec (.process sw (~~~b) (~~~a)) s = .next t ∧ statusDir t.statusOut = 0#2 ∧ t.acc = s.acc ∧
      t.fsmState =
        if s.table = .halfStep ∧
            (s.fsmState = fsmStart ∨ s.fsmState = Half.cwBeginMirror ∨ s.fsmState = Half.ccwBeginMirror)
        then Half.startMirror else fsmStart

/-- 42_transition_tables.md section 4, consequence (c), and the first property of 95_test_vectors.md section 1: a clean
clockwise detent emits exactly one CW event, at its last pattern, and a counter-clockwise one exactly one CCW event; each
PROCESS before the last reports code 0. -/
def Obligations.CleanDetents : Prop :=
  ∀ (s : State) (sw : Bit),
    (s.table = .fullStep → s.fsmState = fsmStart →
      (∃ t u, run (feed [0b10#2, 0b11#2, 0b01#2] sw) s = .next t ∧ t.acc = s.acc ∧
        reported (feed [0b10#2, 0b11#2, 0b01#2] sw) s = [0#2, 0#2, 0#2] ∧
        exec (processLine 0b00#2 sw) t = .next u ∧ statusDir u.statusOut = 1#2 ∧ u.acc = s.acc + 1#7 ∧
        u.fsmState = fsmStart) ∧
      (∃ t u, run (feed [0b01#2, 0b11#2, 0b10#2] sw) s = .next t ∧ t.acc = s.acc ∧
        reported (feed [0b01#2, 0b11#2, 0b10#2] sw) s = [0#2, 0#2, 0#2] ∧
        exec (processLine 0b00#2 sw) t = .next u ∧ statusDir u.statusOut = 2#2 ∧ u.acc = s.acc - 1#7 ∧
        u.fsmState = fsmStart)) ∧
    (s.table = .halfStep → s.fsmState = fsmStart →
      (∃ t u, exec (processLine 0b10#2 sw) s = .next t ∧ t.acc = s.acc ∧ statusDir t.statusOut = 0#2 ∧
        exec (processLine 0b11#2 sw) t = .next u ∧ statusDir u.statusOut = 1#2 ∧ u.acc = s.acc + 1#7 ∧
        u.fsmState = Half.startMirror) ∧
      (∃ t u, exec (processLine 0b01#2 sw) s = .next t ∧ t.acc = s.acc ∧ statusDir t.statusOut = 0#2 ∧
        exec (processLine 0b11#2 sw) t = .next u ∧ statusDir u.statusOut = 2#2 ∧ u.acc = s.acc - 1#7 ∧
        u.fsmState = Half.startMirror)) ∧
    (s.table = .halfStep → s.fsmState = Half.startMirror →
      (∃ t u, exec (processLine 0b01#2 sw) s = .next t ∧ t.acc = s.acc ∧ statusDir t.statusOut = 0#2 ∧
        exec (processLine 0b00#2 sw) t = .next u ∧ statusDir u.statusOut = 1#2 ∧ u.acc = s.acc + 1#7 ∧
        u.fsmState = fsmStart) ∧
      (∃ t u, exec (processLine 0b10#2 sw) s = .next t ∧ t.acc = s.acc ∧ statusDir t.statusOut = 0#2 ∧
        exec (processLine 0b00#2 sw) t = .next u ∧ statusDir u.statusOut = 2#2 ∧ u.acc = s.acc - 1#7 ∧
        u.fsmState = fsmStart))

/-! ### Counting along runs -/

/-- 42_transition_tables.md section 4, exact counting, one command at a time: in every state at a pattern of the spec's
table, with offset `d`, every command other than RESET completes, and the offset after it is `d`, plus `k` per event, minus
the quarter step, at the pattern the command sampled; a command that samples nothing reports no event and keeps it. -/
def Obligations.ExactOffsetKeptByCommands : Prop :=
  ∀ (s : State) (i : Instr) (p : PinPattern) (d : Int),
    exactOffset s.table s.fsmState p = some d → isReset i = false →
    ∃ t, exec i s = .next t ∧ t.table = s.table ∧
      (sampled i = none → statusEvents t.statusOut = 0 ∧ exactOffset t.table t.fsmState p = some d) ∧
      (∀ q, sampled i = some q → p ^^^ q ≠ 0b11#2 →
        exactOffset t.table t.fsmState q =
          some (d + quartersPerEvent s.table * statusEvents t.statusOut - quarterStep p q))

/-- 42_transition_tables.md section 4, first sample away from `00`, one command at a time: what a walk that starts at `p0` can
be in, with its offset, is kept by every command other than RESET on the same terms, lies within the spec's bounds, and is
what the first PROCESS from START gives. -/
def Obligations.WalkOffsetKeptByCommands : Prop :=
  (∀ (s : State) (i : Instr) (p0 p : PinPattern) (o : Int),
    walkOffset s.table p0 s.fsmState p o → isReset i = false →
    ∃ t, exec i s = .next t ∧ t.table = s.table ∧
      (sampled i = none → statusEvents t.statusOut = 0 ∧ walkOffset t.table p0 t.fsmState p o) ∧
      (∀ q, sampled i = some q → p ^^^ q ≠ 0b11#2 →
        walkOffset t.table p0 t.fsmState q
          (o + quartersPerEvent s.table * statusEvents t.statusOut - quarterStep p q))) ∧
  (∀ (t : Table) (p0 : PinPattern) (f : FsmCode) (p : PinPattern) (o : Int), walkOffset t p0 f p o →
    (walkBounds t p0).1 ≤ o ∧ o ≤ (walkBounds t p0).2) ∧
  (∀ (s : State) (i : Instr) (p0 : PinPattern), s.fsmState = fsmStart → sampled i = some p0 →
    ∃ t, exec i s = .next t ∧ statusEvents t.statusOut = 0 ∧ walkOffset t.table p0 t.fsmState p0 0)

/-- 42_transition_tables.md section 4, exact counting: from every state that RESET answers, along every gray-code walk from
`00`, with NOPs and READs anywhere, the state, the latest pattern and `k*E - D` are a row of the spec's table. Every part of
the walk is such a walk too. -/
def Obligations.ExactCountingOnGrayWalks : Prop :=
  ∀ (r s : State) (is : List Instr), exec .reset r = .next s → (∀ i ∈ is, isReset i = false) →
    grayWalk (patterns is) = true → (patterns is).head? = some 0b00#2 →
    ∃ (u : State) (p : PinPattern), run is s = .next u ∧ (patterns is).getLast? = some p ∧
      exactOffset s.table u.fsmState p = some (quartersPerEvent s.table * netEvents is s - netQuarters (patterns is))

/-- 42_transition_tables.md section 4, consequence (a): from every state that RESET answers, at a rest position the event
count is the displacement in detents, exactly. -/
def Obligations.ExactAtRestPositions : Prop :=
  ∀ (r s : State) (is : List Instr) (p : PinPattern), exec .reset r = .next s → (∀ i ∈ is, isReset i = false) →
    grayWalk (patterns is) = true → (patterns is).head? = some 0b00#2 → (patterns is).getLast? = some p →
    restPattern s.table p = true → quartersPerEvent s.table * netEvents is s = netQuarters (patterns is)

/-- 42_transition_tables.md section 4, consequence (b), bounce rejection, from every state that RESET answers: in a stretch
`post` of the walk that starts at a rest position and stays strictly within `k` quarter steps of it, no event is emitted. -/
def Obligations.BounceEmitsNothing : Prop :=
  ∀ (r s : State) (pre post : List Instr) (p : PinPattern), exec .reset r = .next s →
    (∀ i ∈ pre ++ post, isReset i = false) → grayWalk (patterns (pre ++ post)) = true →
    (patterns pre).head? = some 0b00#2 → (patterns pre).getLast? = some p → restPattern s.table p = true →
    (∀ q, q <+: post →
      netQuarters (patterns (pre ++ q)) - netQuarters (patterns pre) < quartersPerEvent s.table ∧
      netQuarters (patterns pre) - netQuarters (patterns (pre ++ q)) < quartersPerEvent s.table) →
    ∀ q, q <+: post → netEvents (pre ++ q) s = netEvents pre s

/-- 42_transition_tables.md section 4, first sample away from `00`: from every state that RESET answers, along a gray-code
walk from any first pattern, the run completes and `k*E - D` stays within the spec's bounds. -/
def Obligations.FirstSampleBounds : Prop :=
  ∀ (r s : State) (is : List Instr) (p : PinPattern), exec .reset r = .next s → (∀ i ∈ is, isReset i = false) →
    grayWalk (patterns is) = true → (patterns is).head? = some p →
    (∃ u, run is s = .next u) ∧
    (walkBounds s.table p).1 ≤ quartersPerEvent s.table * netEvents is s - netQuarters (patterns is) ∧
    quartersPerEvent s.table * netEvents is s - netQuarters (patterns is) ≤ (walkBounds s.table p).2

/-- 41_read.md section 4, corner cases (c) to (e): after a READ, any run without RESET and without READ, and a second READ,
the host reads the net event count modulo 128, as a value in -64 .. 63. -/
def Obligations.ReadReturnsNetCount : Prop :=
  ∀ (s t u : State) (is : List Instr), (∀ i ∈ is, isReset i = false ∧ issuesRead i = false) →
    exec .read s = .next t → run is t = .next u →
    ∃ r, exec .read u = .next r ∧ readDelta r.readOut = Int.bmod (netEvents is t) 128

/-- 70_reset_and_hazards.md section 3: no event is lost and none is counted twice. Over any run without RESET, what the
host read out and what is left in `acc` are, modulo 2^7, what was in `acc` and the events the status bytes reported. -/
def Obligations.NoEventLostOrDoubled : Prop :=
  ∀ (s t : State) (is : List Instr), (∀ i ∈ is, isReset i = false) → run is s = .next t →
    drained is s + t.acc = s.acc + BitVec.ofInt 7 (netEvents is s)

/-- 60_exceptions.md section 6: the behaviour depends on the sequence of commands, not on their spacing: taking the NOPs
out of a run changes no register, no reported event and nothing the host reads out. -/
def Obligations.SpacingIrrelevant : Prop :=
  ∀ (s t : State) (is : List Instr), run is s = .next t →
    ∃ u, run (is.filter fun i => !isNop i) s = .next u ∧
      u.fsmState = t.fsmState ∧ u.acc = t.acc ∧ u.swState = t.swState ∧
      netEvents (is.filter fun i => !isNop i) s = netEvents is s ∧
      drained (is.filter fun i => !isNop i) s = drained is s

/-! ### Command streams -/

/-- 30_encoding.md section 6 (decision D27): the encodings of the lines of all five commands, and the expansions of the
pseudo-commands, as commands and as bytes. -/
def Obligations.PseudoCommandExpansions : Prop :=
  (encodeByte .reset = 0x20#8 ∧ encodeByte .nop = 0x00#8 ∧ encodeByte .read = 0x10#8) ∧
  (∀ (p : PinPattern) (sw : Bit),
    encodeByte (processLine p sw) = 0x08#8 ||| (sw.setWidth 8 <<< 2) ||| p.setWidth 8 ∧
    encodeByte (processReadLine p sw) = 0x18#8 ||| (sw.setWidth 8 <<< 2) ||| p.setWidth 8) ∧
  (∀ (ps : List PinPattern) (sw : Bit),
    feed ps sw = ps.map (fun p => .process sw (p.extractLsb' 1 1) (p.extractLsb' 0 1)) ∧
    encodeStream (feed ps sw) = ps.map (fun p => 0x08#8 ||| (sw.setWidth 8 <<< 2) ||| p.setWidth 8) ∧
    (feed ps sw).length = ps.length ∧ patterns (feed ps sw) = ps) ∧
  (∀ (n : Nat) (is : List Instr), repeatLines n is = (List.replicate n is).flatten) ∧
  (∀ n : Nat, idle n = List.replicate n .nop ∧ encodeStream (idle n) = List.replicate n 0x00#8)

/-- 30_encoding.md section 6 (decision D27): the written line of a command is read back as that command. -/
def Obligations.WrittenLineReadsBack : Prop :=
  ∀ i : Instr, assemble (writeLine i) = some [i] ∧ assemble (writeLine i ++ [' ', ';', ' ', 'x', '\n']) = some [i]
end

