-- ==== Sys2Proof/Laws/Memory.lean ====
section
/-! SUPPORT. The transition-table ROM: its canonical form, where it holds entries, and what the entries are like. The ROM
is the block's only memory and nothing writes it (spec 20_memory.md R30), so its form is a fact about two constants. -/

namespace Sys2Proof.Machine

/-- The ROM of either table is in canonical form. -/
theorem romBytes_wf (t : Table) : Memory.wf (romBytes t) = true := by
  cases t <;> decide

/-- The legal values are those below N_STATES (00_scope.md R7). -/
theorem fsmLegal_iff (t : Table) (s : FsmCode) :
    fsmLegal t s = true ↔ s.toNat < (match t with | .halfStep => 6 | .fullStep => 7) := by
  revert s; cases t <;> decide

/-- START is legal in both tables. -/
@[simp] theorem fsmLegal_start (t : Table) : fsmLegal t fsmStart = true := rfl

/-- A lookup of mapped cells is the mapped lookup. -/
theorem Memory.lookup_map {α β : Type} (f : α → β) (cells : List (Nat × α)) (addr : Nat) :
    Memory.lookup (cells.map fun c => (c.1, f c.2)) addr = (Memory.lookup cells addr).map f := by
  induction cells with
  | nil => rfl
  | cons c rest ih =>
    simp only [List.map_cons, Memory.lookup]
    split <;> simp [ih]

/-- The ROM holds an entry exactly at the addresses of legal states, and it is the entry `tableRead` gives. -/
theorem lookup_rom (t : Table) (s : FsmCode) (p : PinPattern) :
    Memory.lookup (rom t) (romAddress s p).toNat = if fsmLegal t s then some (tableRead t s p) else none := by
  revert p s; cases t <;> decide

/-- The byte the ROM holds at the address of a legal state is the byte of its entry. -/
theorem memRead_legal {t : Table} {s : FsmCode} (h : fsmLegal t s = true) (p : PinPattern) :
    memRead t (romAddress s p) = some (tableRead t s p).byte := by
  simp [memRead, romBytes, Memory.lookup_map, lookup_rom, h]

/-- The next state of every entry read is legal. -/
theorem tableRead_legal {t : Table} {s : FsmCode} (h : fsmLegal t s = true) (p : PinPattern) :
    fsmLegal t (tableRead t s p).next = true := by
  have all : ∀ (s : FsmCode) (p : PinPattern), fsmLegal t s = true → fsmLegal t (tableRead t s p).next = true := by
    cases t <;> decide
  exact all s p h

end Sys2Proof.Machine
end

