-- ==== Sys2Proof/Laws/Ops.lean ====
section
/-! SUPPORT. The shared operations: what the output bytes carry, what the accumulator step adds, and everything the PROCESS
step can do. -/

namespace Sys2Proof.Machine

@[simp] theorem pinPattern_high (b a : Bit) : (pinPattern b a).extractLsb' 1 1 = b := by
  revert b a; decide

@[simp] theorem pinPattern_low (b a : Bit) : (pinPattern b a).extractLsb' 0 1 = a := by
  revert b a; decide

/-- A pattern is the pattern of its two levels. -/
theorem pinPattern_of_levels (p : PinPattern) : pinPattern (p.extractLsb' 1 1) (p.extractLsb' 0 1) = p := by
  revert p; decide

@[simp] theorem statusDir_statusByte (sw : Bit) (d : Dir) : statusDir (statusByte sw d) = d.code := by
  revert sw; cases d <;> decide

@[simp] theorem statusSwitch_statusByte (sw : Bit) (d : Dir) : statusSwitch (statusByte sw d) = sw := by
  revert sw; cases d <;> decide

@[simp] theorem readSwitch_readByte (sw : Bit) (acc : Acc) : readSwitch (readByte sw acc) = sw := by
  revert sw acc; decide

@[simp] theorem readByte_rotation (sw : Bit) (acc : Acc) : (readByte sw acc).extractLsb' 0 7 = acc := by
  revert sw acc; decide

/-- The accumulator step adds the direction's events modulo 2^7. -/
theorem accStep_eq_add (d : Dir) (acc : Acc) : accStep d acc = acc + BitVec.ofInt 7 d.sign := by
  revert acc; cases d <;> decide

/-- Everything the PROCESS step can do when it answers a next state. -/
theorem processFrom_next_iff (acc0 : Acc) (read : Byte) (sw b a : Bit) (s t : State) :
    processFrom acc0 read sw b a s = .next t ↔
      fsmLegal s.table s.fsmState = true ∧
      t = ((s.writeRegs (tableRead s.table s.fsmState (pinPattern b a)).next
          (accStep (tableRead s.table s.fsmState (pinPattern b a)).dir acc0) (switchLevel sw)).drive
        (statusByte (switchLevel sw) (tableRead s.table s.fsmState (pinPattern b a)).dir) read) := by
  unfold processFrom
  split <;> simp [*, eq_comm]

/-- The PROCESS step from a legal state: the entry at its state and pattern, written out. -/
theorem processFrom_legal (acc0 : Acc) (read : Byte) (sw b a : Bit) {s : State} (h : fsmLegal s.table s.fsmState = true) :
    processFrom acc0 read sw b a s =
      .next (((s.writeRegs (tableRead s.table s.fsmState (pinPattern b a)).next
          (accStep (tableRead s.table s.fsmState (pinPattern b a)).dir acc0) (switchLevel sw)).drive
        (statusByte (switchLevel sw) (tableRead s.table s.fsmState (pinPattern b a)).dir) read)) := by
  simp [processFrom, h]

/-- When the PROCESS step stops, and how. -/
theorem processFrom_illegal (acc0 : Acc) (read : Byte) (sw b a : Bit) {s : State}
    (h : fsmLegal s.table s.fsmState = false) : processFrom acc0 read sw b a s = .fault .illegalFsmState := by
  simp [processFrom, h]

/-- No command is refused. -/
theorem exec_not_refused (i : Instr) (s : State) (r : Refusal) : exec i s ≠ .refused r := by
  cases i <;> simp [exec, execReset, execNop, execRead, execProcess, execProcessRead, processFrom]
    <;> split <;> simp

/-- Which command leads from a state to a next state, and to which: one case per command. -/
theorem exec_next_cases {i : Instr} {s t : State} (h : exec i s = .next t) :
    (i = .reset ∧ t = (s.writeRegs fsmStart 0#7 0#1).drive 0x00#8 0x00#8) ∨
    (i = .nop ∧ t = s.drive 0x00#8 0x00#8) ∨
    (i = .read ∧ t = s.clearAcc.drive 0x00#8 (readByte s.swState s.acc)) ∨
    (∃ sw b a, i = .process sw b a ∧ processFrom s.acc 0x00#8 sw b a s = .next t) ∨
    (∃ sw b a, i = .processRead sw b a ∧ processFrom 0#7 (readByte s.swState s.acc) sw b a s = .next t) := by
  cases i with
  | reset => simp_all [exec, execReset]
  | nop => simp_all [exec, execNop]
  | read => simp_all [exec, execRead]
  | process sw b a => exact .inr (.inr (.inr (.inl ⟨sw, b, a, rfl, h⟩)))
  | processRead sw b a => exact .inr (.inr (.inr (.inr ⟨sw, b, a, rfl, h⟩)))

end Sys2Proof.Machine
end

