-- ==== Sys2Proof/Laws/PerInstr.lean ====
section
/-! SUPPORT. Per instruction: the word of a command is one of the words of its row of the command map
(spec 30_encoding.md R51). -/

namespace Sys2Proof.Laws.OpcodeRow

/-- The encoder writes the row's fixed bits. -/
def Statement (i : Instr) : Prop := i.row.takes (encode i) = true

theorem reset : Statement .reset := by unfold Statement; decide

theorem nop : Statement .nop := by unfold Statement; decide

theorem process (s b a : Bit) : Statement (.process s b a) := by
  unfold Statement; revert s b a; decide

theorem read : Statement .read := by unfold Statement; decide

theorem processRead (s b a : Bit) : Statement (.processRead s b a) := by
  unfold Statement; revert s b a; decide

end Sys2Proof.Laws.OpcodeRow
end

