-- ==== Sys2Proof/Laws/Runs.lean ====
section
/-! SUPPORT. Runs of commands, and what is counted along them: one lemma per way a run can begin, and how runs compose. -/

namespace Sys2Proof.Safety

open Sys2Proof.Machine

/-- A step along a run: the command answers a next state, and the run goes on from it. -/
theorem run_cons_next {i : Instr} {s t : State} (h : exec i s = .next t) (is : List Instr) :
    run (i :: is) s = run is t := by
  simp [run, h]

/-- Two runs one after the other. -/
theorem run_append_next {is : List Instr} {s t : State} (h : run is s = .next t) (js : List Instr) :
    run (is ++ js) s = run js t := by
  induction is generalizing s with
  | nil => simp_all [run]
  | cons i is ih =>
    cases hx : exec i s with
    | next u => exact (run_cons_next hx _).trans (ih ((run_cons_next hx is).symm.trans h))
    | fault r => simp [run, hx] at h
    | refused r => simp [run, hx] at h

theorem netEvents_cons_next {i : Instr} {s t : State} (h : exec i s = .next t) (is : List Instr) :
    netEvents (i :: is) s = statusEvents t.statusOut + netEvents is t := by
  simp [netEvents, h]

theorem netEvents_append_next {is : List Instr} {s t : State} (h : run is s = .next t) (js : List Instr) :
    netEvents (is ++ js) s = netEvents is s + netEvents js t := by
  induction is generalizing s with
  | nil => simp_all [run, netEvents]
  | cons i is ih =>
    cases hx : exec i s with
    | next u =>
      rw [List.cons_append, netEvents_cons_next hx, netEvents_cons_next hx,
        ih ((run_cons_next hx is).symm.trans h), add_assoc]
    | fault r => simp [run, hx] at h
    | refused r => simp [run, hx] at h

theorem drained_cons_next {i : Instr} {s t : State} (h : exec i s = .next t) (is : List Instr) :
    drained (i :: is) s = t.readOut.extractLsb' 0 7 + drained is t := by
  simp [drained, h]

theorem reported_cons_next {i : Instr} {s t : State} (h : exec i s = .next t) (is : List Instr) :
    reported (i :: is) s = statusDir t.statusOut :: reported is t := by
  simp [reported, h]

/-- The status byte of a PROCESS reports the events of its direction. -/
@[simp] theorem statusEvents_statusByte (sw : Bit) (d : Dir) : statusEvents (statusByte sw d) = d.sign := by
  revert sw; cases d <;> decide

@[simp] theorem statusEvents_zero : statusEvents 0x00#8 = 0 := by decide

theorem patterns_append (is js : List Instr) : patterns (is ++ js) = patterns is ++ patterns js := by
  simp [patterns]

theorem patterns_cons_none {i : Instr} (h : sampled i = none) (is : List Instr) : patterns (i :: is) = patterns is := by
  simp [patterns, h]

theorem patterns_cons_some {i : Instr} {p : PinPattern} (h : sampled i = some p) (is : List Instr) :
    patterns (i :: is) = p :: patterns is := by
  simp [patterns, h]

theorem grayWalk_cons_cons (p q : PinPattern) (rest : List PinPattern) :
    grayWalk (p :: q :: rest) = ((p ^^^ q != 0b11#2) && grayWalk (q :: rest)) := rfl

theorem netQuarters_cons_cons (p q : PinPattern) (rest : List PinPattern) :
    netQuarters (p :: q :: rest) = quarterStep p q + netQuarters (q :: rest) := rfl

end Sys2Proof.Safety
end

