-- ==== Sys2Proof/Laws/State.lean ====
section
/-! SUPPORT. The state: one lemma per field per update, so that no proof unfolds a record update. -/

namespace Sys2Proof.Machine

@[simp] theorem State.writeRegs_table (fsm : FsmCode) (acc : Acc) (sw : Bit) (s : State) : (s.writeRegs fsm acc sw).table = s.table := rfl
@[simp] theorem State.writeRegs_fsmState (fsm : FsmCode) (acc : Acc) (sw : Bit) (s : State) : (s.writeRegs fsm acc sw).fsmState = fsm := rfl
@[simp] theorem State.writeRegs_acc (fsm : FsmCode) (acc : Acc) (sw : Bit) (s : State) : (s.writeRegs fsm acc sw).acc = acc := rfl
@[simp] theorem State.writeRegs_swState (fsm : FsmCode) (acc : Acc) (sw : Bit) (s : State) : (s.writeRegs fsm acc sw).swState = sw := rfl
@[simp] theorem State.writeRegs_statusOut (fsm : FsmCode) (acc : Acc) (sw : Bit) (s : State) : (s.writeRegs fsm acc sw).statusOut = s.statusOut := rfl
@[simp] theorem State.writeRegs_readOut (fsm : FsmCode) (acc : Acc) (sw : Bit) (s : State) : (s.writeRegs fsm acc sw).readOut = s.readOut := rfl
@[simp] theorem State.writeRegs_hostWords (fsm : FsmCode) (acc : Acc) (sw : Bit) (s : State) : (s.writeRegs fsm acc sw).hostWords = s.hostWords := rfl
@[simp] theorem State.writeRegs_draws (fsm : FsmCode) (acc : Acc) (sw : Bit) (s : State) : (s.writeRegs fsm acc sw).draws = s.draws := rfl

@[simp] theorem State.clearAcc_table (s : State) : (s.clearAcc).table = s.table := rfl
@[simp] theorem State.clearAcc_fsmState (s : State) : (s.clearAcc).fsmState = s.fsmState := rfl
@[simp] theorem State.clearAcc_acc (s : State) : (s.clearAcc).acc = 0#7 := rfl
@[simp] theorem State.clearAcc_swState (s : State) : (s.clearAcc).swState = s.swState := rfl
@[simp] theorem State.clearAcc_statusOut (s : State) : (s.clearAcc).statusOut = s.statusOut := rfl
@[simp] theorem State.clearAcc_readOut (s : State) : (s.clearAcc).readOut = s.readOut := rfl
@[simp] theorem State.clearAcc_hostWords (s : State) : (s.clearAcc).hostWords = s.hostWords := rfl
@[simp] theorem State.clearAcc_draws (s : State) : (s.clearAcc).draws = s.draws := rfl

@[simp] theorem State.drive_table (status read : Byte) (s : State) : (s.drive status read).table = s.table := rfl
@[simp] theorem State.drive_fsmState (status read : Byte) (s : State) : (s.drive status read).fsmState = s.fsmState := rfl
@[simp] theorem State.drive_acc (status read : Byte) (s : State) : (s.drive status read).acc = s.acc := rfl
@[simp] theorem State.drive_swState (status read : Byte) (s : State) : (s.drive status read).swState = s.swState := rfl
@[simp] theorem State.drive_statusOut (status read : Byte) (s : State) : (s.drive status read).statusOut = status := rfl
@[simp] theorem State.drive_readOut (status read : Byte) (s : State) : (s.drive status read).readOut = read := rfl
@[simp] theorem State.drive_hostWords (status read : Byte) (s : State) : (s.drive status read).hostWords = s.hostWords := rfl
@[simp] theorem State.drive_draws (status read : Byte) (s : State) : (s.drive status read).draws = s.draws := rfl

@[simp] theorem State.placeWord_table (w : CycleWord) (s : State) : (s.placeWord w).table = s.table := rfl
@[simp] theorem State.placeWord_fsmState (w : CycleWord) (s : State) : (s.placeWord w).fsmState = s.fsmState := rfl
@[simp] theorem State.placeWord_acc (w : CycleWord) (s : State) : (s.placeWord w).acc = s.acc := rfl
@[simp] theorem State.placeWord_swState (w : CycleWord) (s : State) : (s.placeWord w).swState = s.swState := rfl
@[simp] theorem State.placeWord_statusOut (w : CycleWord) (s : State) : (s.placeWord w).statusOut = s.statusOut := rfl
@[simp] theorem State.placeWord_readOut (w : CycleWord) (s : State) : (s.placeWord w).readOut = s.readOut := rfl
@[simp] theorem State.placeWord_hostWords (w : CycleWord) (s : State) : (s.placeWord w).hostWords = w :: s.hostWords.tail := rfl
@[simp] theorem State.placeWord_draws (w : CycleWord) (s : State) : (s.placeWord w).draws = s.draws := rfl

@[simp] theorem State.consume_table (s : State) : s.consume.table = s.table := by
  unfold State.consume; split <;> rfl
@[simp] theorem State.consume_fsmState (s : State) : s.consume.fsmState = s.fsmState := by
  unfold State.consume; split <;> rfl
@[simp] theorem State.consume_acc (s : State) : s.consume.acc = s.acc := by
  unfold State.consume; split <;> rfl
@[simp] theorem State.consume_swState (s : State) : s.consume.swState = s.swState := by
  unfold State.consume; split <;> rfl
@[simp] theorem State.consume_statusOut (s : State) : s.consume.statusOut = s.statusOut := by
  unfold State.consume; split <;> rfl
@[simp] theorem State.consume_readOut (s : State) : s.consume.readOut = s.readOut := by
  unfold State.consume; split <;> rfl

@[simp] theorem State.consume_hostWords (s : State) : s.consume.hostWords = s.hostWords.tail := by
  unfold State.consume; split <;> simp [*]

theorem State.consume_draws_placed {s : State} {w : CycleWord} {ws : List CycleWord} (h : s.hostWords = w :: ws) :
    s.consume.draws = s.draws := by
  unfold State.consume; split <;> simp_all

theorem State.consume_draws_free {s : State} (h : s.hostWords = []) : s.consume.draws = s.draws + 1 := by
  unfold State.consume; split <;> simp_all

theorem State.nextWord_placed {s : State} {w : CycleWord} {ws : List CycleWord} (h : s.hostWords = w :: ws) :
    s.nextWord = w := by
  unfold State.nextWord; split <;> simp_all

theorem State.nextWord_free {s : State} (h : s.hostWords = []) : s.nextWord = Config.hostWord s.draws := by
  unfold State.nextWord; split <;> simp_all

@[simp] theorem State.placeWord_nextWord (w : CycleWord) (s : State) : (s.placeWord w).nextWord = w := rfl

@[simp] theorem State.resetFor_table (t : Table) : (State.resetFor t).table = t := rfl
@[simp] theorem State.resetFor_fsmState (t : Table) : (State.resetFor t).fsmState = fsmStart := rfl
@[simp] theorem State.resetFor_acc (t : Table) : (State.resetFor t).acc = 0#7 := rfl
@[simp] theorem State.resetFor_swState (t : Table) : (State.resetFor t).swState = 0#1 := rfl
@[simp] theorem State.resetFor_statusOut (t : Table) : (State.resetFor t).statusOut = 0x00#8 := rfl
@[simp] theorem State.resetFor_readOut (t : Table) : (State.resetFor t).readOut = 0x00#8 := rfl
@[simp] theorem State.resetFor_hostWords (t : Table) : (State.resetFor t).hostWords = [] := rfl
@[simp] theorem State.resetFor_draws (t : Table) : (State.resetFor t).draws = 0 := rfl

end Sys2Proof.Machine
end

