-- ==== Sys2Proof/Tests/Slice0.lean ====
section
/-! SUPPORT. The model's own tests: the well-formedness smoke, words written out from the spec's encodings, vectors of
95_test_vectors.md (named in each test's comment), and for every statement with hypotheses a witness that meets them. -/

namespace Sys2Proof.Tests

open Sys2Proof.Machine Sys2Proof.Safety

/-- A state as 95_test_vectors.md writes it: `(fsm_state, acc, sw_state)` under a table. -/
def st (t : Table) (fsm : FsmCode) (acc : Acc) (sw : Bit) : State :=
  { State.resetFor t with fsmState := fsm, acc := acc, swState := sw }

/-- The end state and the outputs of a vector: `fsm_state`, `acc`, `sw_state`, status, read. -/
def shown : Result → Option (FsmCode × Acc × Bit × Byte × Byte)
  | .next s => some (s.fsmState, s.acc, s.swState, s.statusOut, s.readOut)
  | .fault _ => none
  | .refused _ => none

/-! ### Well-formedness smoke -/

-- 30_encoding.md R42: 0x3F is the last cycle word; 0x40 and 0x80 set a bit no port stands behind.
theorem test_byte_accepted : isCycleByte 0x3F#8 = true := by decide
theorem test_byte_bit6_refused : isCycleByte 0x40#8 = false := by decide
theorem test_byte_bit7_refused : isCycleByte 0x80#8 = false := by decide
theorem test_ill_formed_byte_rejected_by_name : decodeByte 0x48#8 = .error .notACycleWord := by rfl
theorem test_no_byte_rejected_by_name : decodeBytes [] = .error .noByte := by rfl

/-! ### Decode, words written out from 30_encoding.md R51 -/

-- `1xxxxx`
theorem test_decode_reset : decode 0b101101#6 = .reset := by decide
-- `000xxx`
theorem test_decode_nop : decode 0b000101#6 = .nop := by decide
-- `001sba`, s = 0, b = 1, a = 0
theorem test_decode_process : decode 0b001010#6 = .process 0#1 1#1 0#1 := by decide
-- `010xxx`
theorem test_decode_read : decode 0b010011#6 = .read := by decide
-- `011sba`, s = 1, b = 0, a = 1
theorem test_decode_processRead : decode 0b011101#6 = .processRead 1#1 0#1 1#1 := by decide
-- 30_encoding.md R54: `PROCESS 10, 1` encodes as 0x0E.
theorem test_encode_process : encode (processLine 0b10#2 1#1) = 0x0E#6 := by decide
theorem test_table_word : decodeTableWord 8 0x18 = some (.processRead 0#1 0#1 0#1) := by decide
theorem test_table_word_outside : decodeTableWord 8 0x40 = none := by decide

/-! ### Vectors -/

-- V2.5n
theorem test_reset_full : shown (exec .reset (st .fullStep Full.ccwFinal 0x12#7 1#1)) =
    some (fsmStart, 0#7, 0#1, 0x00#8, 0x00#8) := by decide
-- From a state no run reaches (fsm_state 0xF); 70_reset_and_hazards.md R101 "any state".
theorem test_reset_illegal : shown (exec .reset (st .halfStep 0xF#4 0x7F#7 1#1)) =
    some (fsmStart, 0#7, 0#1, 0x00#8, 0x00#8) := by decide
-- V2.5h
theorem test_nop : shown (exec .nop (st .halfStep Half.cwBegin 0x05#7 1#1)) =
    some (Half.cwBegin, 0x05#7, 1#1, 0x00#8, 0x00#8) := by decide
-- V2.5c
theorem test_read_pressed_minus_one : shown (exec .read (st .halfStep Half.startMirror 0x7F#7 1#1)) =
    some (Half.startMirror, 0#7, 1#1, 0x00#8, 0xFF#8) := by decide
-- V2.5d
theorem test_read_alias : shown (exec .read (st .fullStep fsmStart 0x40#7 0#1)) =
    some (fsmStart, 0#7, 0#1, 0x00#8, 0x40#8) := by decide
-- V2.3c
theorem test_process_wraps_up : shown (exec (.process 1#1 1#1 1#1) (st .halfStep Half.cwBegin 0x3F#7 0#1)) =
    some (Half.startMirror, 0x40#7, 0#1, 0x01#8, 0x00#8) := by decide
-- V2.3l
theorem test_process_ccw_pressed : shown (exec (.process 0#1 0#1 0#1) (st .fullStep Full.ccwFinal 0x00#7 0#1)) =
    some (fsmStart, 0x7F#7, 1#1, 0x06#8, 0x00#8) := by decide
-- V2.5j
theorem test_processRead_half : shown (exec (.processRead 1#1 1#1 1#1) (st .halfStep Half.cwBegin 0x05#7 1#1)) =
    some (Half.startMirror, 0x01#7, 0#1, 0x01#8, 0x85#8) := by decide
-- V2.5m
theorem test_processRead_full : shown (exec (.processRead 0#1 0#1 0#1) (st .fullStep Full.cwFinal 0x3F#7 1#1)) =
    some (fsmStart, 0x01#7, 1#1, 0x05#8, 0xBF#8) := by decide
-- V2.5k, as the step of its word 0x1B placed on the ports.
theorem test_step_placed : shown (step ((st .halfStep Half.ccwBegin 0x00#7 0#1).withFetchWord 8 0x1B)) =
    some (Half.startMirror, 0x7F#7, 1#1, 0x06#8, 0x00#8) := by decide
-- From reset, whatever the table, the first PROCESS answers a next state.
theorem test_first_process_runs : ∃ t, step (State.reset.withFetchWord 8 0x08) = .next t := ⟨_, rfl⟩
-- 30_encoding.md R55: a nested REPEAT with a FEED, an IDLE, a comment.
theorem test_assemble :
    assemble (['R', 'E', 'P', 'E', 'A', 'T', ' ', '2', ' ', Char.ofNat 123, ' ', 'F', 'E', 'E', 'D', ' ', '1', '0',
      ' ', '1', '1', ',', ' ', '1', ' ', Char.ofNat 125, ' ', ';', ' ', 'c', '\n', 'I', 'D', 'L', 'E', ' ', '1']) =
    some [.process 1#1 1#1 0#1, .process 1#1 1#1 1#1, .process 1#1 1#1 0#1, .process 1#1 1#1 1#1, .nop] := by decide
-- 30_encoding.md R54: one command a line.
theorem test_assemble_one_per_line : assemble ['N', 'O', 'P', ' ', 'N', 'O', 'P'] = none := by decide
-- A blank line and a line with only a comment are skipped (log 14).
theorem test_assemble_blank_lines : assemble ['\n', ';', 'x', '\n', 'N', 'O', 'P', '\n', '\n'] = some [.nop] := by decide
-- 30_encoding.md R54: `PROCESS 10, 1` is 0E.
theorem test_hex : writeHex (processLine 0b10#2 1#1) = ['0', 'E'] := by decide

/-! ### Witnesses -/

theorem witness_DecodeOfEncode : (Instr.processRead 1#1 0#1 1#1).wellFormed = true := by decide

theorem witness_BytesOutsideTheWordRejected : (0x3F#8).toNat < 64 ∧ 64 ≤ (0x40#8).toNat := by decide

/-- A state with a word placed, and a state with none. -/
theorem witness_StepRunsDecodedCommand :
    (∃ (s : State) (i : Instr) (w : CycleWord) (ws : List CycleWord),
      i.wellFormed = true ∧ decode s.nextWord = i ∧ s.hostWords = w :: ws) ∧
    (∃ (s : State) (i : Instr), i.wellFormed = true ∧ decode s.nextWord = i ∧ s.hostWords = []) := by
  refine ⟨⟨(State.resetFor .halfStep).placeWord 0x0F#6, .process 1#1 1#1 1#1, 0x0F#6, [], by decide, by decide, rfl⟩,
    ⟨State.resetFor .halfStep, decode (Config.hostWord 0), ?_, rfl, rfl⟩⟩
  cases decode (Config.hostWord 0) <;> rfl

theorem witness_PlacedWordRunsNext : decodeTableWord 8 0x3F = some .reset := by decide

theorem witness_PlacedWordsRunInOrder :
    ({ State.resetFor .fullStep with hostWords := [0x0E#6, 0x10#6, 0x00#6] } : State).hostWords =
      [0x0E#6, 0x10#6] ++ [0x00#6] := rfl

theorem witness_ResetEffect : CycleWord.rst 0x20#6 = 1#1 ∧ CycleWord.rst 0x3F#6 = 1#1 := by decide

/-- The last legal value of each table: the premise of ProcessEffect, ProcessReadEffect, ProcessReadIsReadThenProcess,
SwitchStoredInverted, StatusByteOfProcess and AtMostOneEvent. -/
theorem witness_ProcessEffect :
    Legal (st .halfStep Half.ccwBeginMirror 0x01#7 0#1) ∧ Legal (st .fullStep Full.ccwNext 0x01#7 0#1) := by decide

theorem witness_ProcessReadEffect : Legal (st .halfStep Half.cwBegin 0x05#7 1#1) := by decide

theorem witness_ProcessReadIsReadThenProcess : Legal (st .fullStep Full.cwFinal 0x3F#7 1#1) := by decide

theorem witness_IllegalStateFaults :
    ((st .halfStep 0x6#4 0#7 0#1).table = .halfStep ∧ 6 ≤ (st .halfStep 0x6#4 0#7 0#1).fsmState.toNat) ∧
    ((st .fullStep 0x7#4 0#7 0#1).table = .fullStep ∧ 7 ≤ (st .fullStep 0x7#4 0#7 0#1).fsmState.toNat) := by decide

theorem witness_SwitchStoredInverted : Legal (st .halfStep fsmStart 0#7 1#1) := by decide

theorem witness_FsmStepReadsTheTable :
    Legal (st .fullStep Full.cwFinal 0x00#7 0#1) ∧
    (st .fullStep Full.cwFinal 0x33#7 1#1).table = (st .fullStep Full.cwFinal 0x00#7 0#1).table ∧
    (st .fullStep Full.cwFinal 0x33#7 1#1).fsmState = (st .fullStep Full.cwFinal 0x00#7 0#1).fsmState := by decide

/-- A legal state, and the direction code its PROCESS reports, for one input. -/
def dirOf (r : Result) : Option (BitVec 2) := (shown r).map fun x => statusDir x.2.2.2.1

/-- Every clause at the ends of the accumulator: CW below and at +63, CCW above and at -64, and no event
(V2.3b, V2.3c, V2.3g, V2.3f, V2.3o). -/
theorem witness_AccumulatorStep :
    (Legal (st .halfStep Half.cwBegin 0x3E#7 0#1) ∧ (0x3E#7 ≠ 0x3F#7) ∧
      dirOf (exec (.process 1#1 1#1 1#1) (st .halfStep Half.cwBegin 0x3E#7 0#1)) = some 1#2) ∧
    (Legal (st .halfStep Half.cwBegin 0x3F#7 0#1) ∧
      dirOf (exec (.process 1#1 1#1 1#1) (st .halfStep Half.cwBegin 0x3F#7 0#1)) = some 1#2) ∧
    (Legal (st .halfStep Half.ccwBegin 0x41#7 0#1) ∧ (0x41#7 ≠ 0x40#7) ∧
      dirOf (exec (.process 1#1 1#1 1#1) (st .halfStep Half.ccwBegin 0x41#7 0#1)) = some 2#2) ∧
    (Legal (st .halfStep Half.ccwBegin 0x40#7 0#1) ∧
      dirOf (exec (.process 1#1 1#1 1#1) (st .halfStep Half.ccwBegin 0x40#7 0#1)) = some 2#2) ∧
    (Legal (st .fullStep fsmStart 0x12#7 0#1) ∧
      dirOf (exec (.process 1#1 1#1 1#1) (st .fullStep fsmStart 0x12#7 0#1)) = some 0#2) := by decide

theorem witness_StatusByteOfProcess : Legal (st .fullStep Full.ccwFinal 0x40#7 0#1) := by decide

theorem witness_AtMostOneEvent : Legal (st .fullStep Full.cwBegin 0x12#7 1#1) := by decide

/-- A state and pattern of each side: the state moves on the repeat (V2.4a), and it does not (V2.4e). -/
theorem witness_RepeatedPatternSettles :
    Legal (st .halfStep Half.ccwBegin 0#7 0#1) ∧ pinPattern 1#1 0#1 = 0b10#2 ∧
    Legal (st .fullStep Full.cwBegin 0#7 0#1) := by decide

/-- READ in a state no run reaches, and PROCESS_READ in a legal one. -/
theorem witness_ReadByteFormat :
    (issuesRead .read = true ∧ (Legal (st .halfStep 0xF#4 0#7 0#1) ∨ issuesProcess .read = false)) ∧
    (issuesRead (.processRead 0#1 1#1 1#1) = true ∧
      (Legal (st .fullStep Full.ccwNext 0#7 0#1) ∨ issuesProcess (.processRead 0#1 1#1 1#1) = false)) := by decide

theorem witness_OutputsZeroWhenNotDriven :
    (issuesProcess .read = false ∧ ∃ t, exec .read (st .halfStep fsmStart 0x01#7 1#1) = .next t) ∧
    (issuesRead (.process 0#1 0#1 0#1) = false ∧
      ∃ t, exec (.process 0#1 0#1 0#1) (st .halfStep fsmStart 0x01#7 1#1) = .next t) :=
  ⟨⟨rfl, _, rfl⟩, ⟨rfl, _, rfl⟩⟩

theorem witness_StatusByteFormat :
    (issuesProcess (.process 0#1 0#1 0#1) = true ∧
      ∃ t, exec (.process 0#1 0#1 0#1) (st .fullStep Full.ccwFinal 0#7 0#1) = .next t) ∧
    (issuesProcess (.processRead 1#1 0#1 0#1) = true ∧
      ∃ t, exec (.processRead 1#1 0#1 0#1) (st .fullStep Full.cwFinal 0#7 0#1) = .next t) :=
  ⟨⟨rfl, _, rfl⟩, ⟨rfl, _, rfl⟩⟩

theorem witness_SecondReadReturnsZero : ∀ i ∈ [Instr.nop, .read, .nop], issuesProcess i = false ∧ isReset i = false := by
  decide

theorem witness_SwitchHoldsLatestSample :
    ∃ t, run [.process 0#1 0#1 0#1, .nop, .read] (State.resetFor .halfStep) = .next t ∧ Legal t := ⟨_, rfl, by decide⟩

theorem witness_CommandsKeepTableAndRom : ∃ t, exec (.processRead 0#1 1#1 1#1) (st .halfStep Half.cwBegin 0#7 0#1) = .next t :=
  ⟨_, rfl⟩

/-- One command for each clause of the access table. -/
theorem witness_RegisterAccess :
    (issuesProcess .read = false ∧ isReset .read = false ∧ ∃ t, exec .read (st .halfStep 0xF#4 1#7 1#1) = .next t) ∧
    (isNop .nop = true ∧ ∃ t, exec .nop (st .halfStep 0xF#4 1#7 1#1) = .next t) ∧
    (issuesRead (.process 0#1 1#1 0#1) = false ∧ isReset (.process 0#1 1#1 0#1) = false ∧
      dirOf (exec (.process 0#1 1#1 0#1) (st .halfStep fsmStart 1#7 1#1)) = some 0#2) ∧
    (issuesRead .read = true ∧ issuesProcess .read = false) :=
  ⟨⟨rfl, rfl, _, rfl⟩, ⟨rfl, _, rfl⟩, by decide, by decide⟩

theorem witness_FsmStateHidden : issuesProcess .read = false ∧ issuesProcess .reset = false := by decide

theorem witness_InstancesIndependent :
    ([st .halfStep Half.cwBegin 0x05#7 1#1, st .fullStep Full.cwNext 0x22#7 0#1] : Platform)[1]? =
      some (st .fullStep Full.cwNext 0x22#7 0#1) ∧
    (Legal (st .fullStep Full.cwNext 0x22#7 0#1) ∨ issuesProcess (.processRead 1#1 0#1 1#1) = false) := by decide

theorem witness_InvariantKeptByStep :
    BlockInv ((st .fullStep Full.ccwNext 0x7F#7 1#1).placeWord 0x0A#6) ∧
    ∃ t, step ((st .fullStep Full.ccwNext 0x7F#7 1#1).placeWord 0x0A#6) = .next t := ⟨by decide, _, rfl⟩

theorem witness_TablesTotalAndClosed : fsmLegal .halfStep 0x5#4 = true ∧ fsmLegal .fullStep 0x6#4 = true := by decide

theorem witness_EveryLegalStateReachable : fsmLegal .halfStep 0x5#4 = true ∧ fsmLegal .fullStep 0x6#4 = true := by decide

/-- An emission at `11` and one at `00`. -/
theorem witness_EmissionPositions :
    (Legal (st .halfStep Half.ccwBegin 0#7 0#1) ∧ pinPattern 1#1 1#1 = 0b11#2 ∧
      dirOf (exec (.process 1#1 1#1 1#1) (st .halfStep Half.ccwBegin 0#7 0#1)) = some 2#2) ∧
    (Legal (st .fullStep Full.cwFinal 0#7 0#1) ∧ pinPattern 0#1 0#1 = 0b00#2 ∧
      dirOf (exec (.process 1#1 0#1 0#1) (st .fullStep Full.cwFinal 0#7 0#1)) = some 1#2) := by decide

/-- CW_BEGIN_MIRROR at `01` (leads to START_MIRROR) and full-step START at `11` (leads to START). -/
theorem witness_TwoBitJumps :
    (Legal (st .halfStep Half.cwBeginMirror 0#7 0#1) ∧
      memRead .halfStep (romAddress Half.cwBeginMirror (pinPattern 0#1 1#1)) = some 0x04#8 ∧
      (0x04#8).extractLsb' 0 4 = Half.cwBeginMirror) ∧
    (Legal (st .fullStep fsmStart 0#7 0#1) ∧ memRead .fullStep (romAddress fsmStart (pinPattern 1#1 1#1)) = some 0x00#8 ∧
      (0x00#8).extractLsb' 0 4 = fsmStart) := by decide

theorem witness_CleanDetents :
    ((st .fullStep fsmStart 0#7 0#1).table = .fullStep ∧ (st .fullStep fsmStart 0#7 0#1).fsmState = fsmStart) ∧
    ((st .halfStep fsmStart 0#7 0#1).table = .halfStep ∧ (st .halfStep fsmStart 0#7 0#1).fsmState = fsmStart) ∧
    ((st .halfStep Half.startMirror 0#7 0#1).table = .halfStep ∧
      (st .halfStep Half.startMirror 0#7 0#1).fsmState = Half.startMirror) := by decide

/-- A walk with a NOP, a READ and a PROCESS_READ in it. -/
def walk : List Instr :=
  [.nop, .process 1#1 0#1 0#1, .process 1#1 1#1 0#1, .read, .processRead 0#1 1#1 1#1, .process 1#1 0#1 1#1,
   .process 1#1 0#1 0#1]

/-- A state that RESET answers in mid-run: a word is still placed, and the state before it was illegal. -/
def midRun (t : Table) : State := { State.resetFor t with hostWords := [0x0E#6], draws := 7 }

theorem witness_reset_answers (t : Table) : exec .reset { midRun t with fsmState := 0xF#4, acc := 0x12#7 } = .next (midRun t) :=
  rfl

/-- An offset at the edge of each table, a command that samples nothing, and one that samples a neighbour. -/
theorem witness_ExactOffsetKeptByCommands :
    (exactOffset (st .fullStep Full.cwFinal 0x3F#7 0#1).table (st .fullStep Full.cwFinal 0x3F#7 0#1).fsmState 0b01#2 =
      some (-3) ∧ isReset (.processRead 1#1 0#1 0#1) = false ∧ sampled (.processRead 1#1 0#1 0#1) = some 0b00#2 ∧
      0b01#2 ^^^ 0b00#2 ≠ 0b11#2) ∧
    (exactOffset (st .halfStep Half.ccwBeginMirror 0#7 0#1).table (st .halfStep Half.ccwBeginMirror 0#7 0#1).fsmState
      0b10#2 = some 1 ∧ isReset .read = false ∧ sampled .read = none) := by decide

/-- The two extremes of a full-step walk from `11`, its start, and the first PROCESS. -/
theorem witness_WalkOffsetKeptByCommands :
    walkOffset (st .fullStep Full.cwFinal 0#7 0#1).table 0b11#2 (st .fullStep Full.cwFinal 0#7 0#1).fsmState 0b01#2 (-5) ∧
    walkOffset (st .fullStep Full.ccwFinal 0#7 0#1).table 0b11#2 (st .fullStep Full.ccwFinal 0#7 0#1).fsmState 0b10#2 5 ∧
    walkOffset (st .fullStep fsmStart 0#7 0#1).table 0b11#2 (st .fullStep fsmStart 0#7 0#1).fsmState 0b11#2 0 ∧
    (isReset .nop = false ∧ sampled .nop = none) ∧
    (isReset (.process 1#1 0#1 0#1) = false ∧ sampled (.process 1#1 0#1 0#1) = some 0b00#2 ∧
      0b01#2 ^^^ 0b00#2 ≠ 0b11#2) ∧
    ((midRun .fullStep).fsmState = fsmStart ∧ sampled (.process 1#1 1#1 1#1) = some 0b11#2) :=
  ⟨.inl ⟨-2, by decide, by decide⟩, .inl ⟨2, by decide, by decide⟩, .inr (by decide), by decide, by decide, by decide⟩

theorem witness_ExactCountingOnGrayWalks :
    exec .reset { midRun .halfStep with fsmState := 0xF#4, acc := 0x12#7 } = .next (midRun .halfStep) ∧
    (∀ i ∈ walk, isReset i = false) ∧ grayWalk (patterns walk) = true ∧ (patterns walk).head? = some 0b00#2 :=
  ⟨witness_reset_answers _, by decide⟩

theorem witness_ExactAtRestPositions :
    exec .reset { midRun .fullStep with fsmState := 0xF#4, acc := 0x12#7 } = .next (midRun .fullStep) ∧
    (∀ i ∈ walk, isReset i = false) ∧ grayWalk (patterns walk) = true ∧ (patterns walk).head? = some 0b00#2 ∧
    (patterns walk).getLast? = some 0b00#2 ∧ restPattern (midRun .fullStep).table 0b00#2 = true :=
  ⟨witness_reset_answers _, by decide⟩

/-- The bounce `00 -> 10 -> 11 -> 10 -> 00` of V1.3c. -/
theorem witness_BounceEmitsNothing :
    exec .reset { midRun .fullStep with fsmState := 0xF#4, acc := 0x12#7 } = .next (midRun .fullStep) ∧
    (∀ i ∈ feed [0b00#2] 1#1 ++ feed [0b10#2, 0b11#2, 0b10#2, 0b00#2] 1#1, isReset i = false) ∧
    grayWalk (patterns (feed [0b00#2] 1#1 ++ feed [0b10#2, 0b11#2, 0b10#2, 0b00#2] 1#1)) = true ∧
    (patterns (feed [0b00#2] 1#1)).head? = some 0b00#2 ∧ (patterns (feed [0b00#2] 1#1)).getLast? = some 0b00#2 ∧
    restPattern (midRun .fullStep).table 0b00#2 = true ∧
    ∀ q, q <+: feed [0b10#2, 0b11#2, 0b10#2, 0b00#2] 1#1 →
      netQuarters (patterns (feed [0b00#2] 1#1 ++ q)) - netQuarters (patterns (feed [0b00#2] 1#1)) <
        quartersPerEvent (midRun .fullStep).table ∧
      netQuarters (patterns (feed [0b00#2] 1#1)) - netQuarters (patterns (feed [0b00#2] 1#1 ++ q)) <
        quartersPerEvent (midRun .fullStep).table := by
  refine ⟨witness_reset_answers _, by decide, by decide, by decide, by decide, by decide, ?_⟩
  intro q h
  rw [← List.mem_inits] at h
  revert q
  decide

/-- A gray-code walk from each of the four first patterns, under each table. -/
theorem witness_FirstSampleBounds (t : Table) :
    exec .reset { midRun t with fsmState := 0xF#4, acc := 0x12#7 } = .next (midRun t) ∧
    ∀ p : PinPattern, (∀ i ∈ feed [p, p, p ^^^ 0b01#2, p ^^^ 0b11#2] 1#1, isReset i = false) ∧
      grayWalk (patterns (feed [p, p, p ^^^ 0b01#2, p ^^^ 0b11#2] 1#1)) = true ∧
      (patterns (feed [p, p, p ^^^ 0b01#2, p ^^^ 0b11#2] 1#1)).head? = some p :=
  ⟨witness_reset_answers t, by decide⟩

theorem witness_ReadReturnsNetCount :
    (∀ i ∈ [Instr.nop, .process 1#1 1#1 1#1], isReset i = false ∧ issuesRead i = false) ∧
    ∃ t u, exec .read (st .halfStep Half.cwBegin 0x3F#7 0#1) = .next t ∧
      run [.nop, .process 1#1 1#1 1#1] t = .next u := ⟨by decide, _, _, rfl, rfl⟩

theorem witness_NoEventLostOrDoubled :
    (∀ i ∈ walk, isReset i = false) ∧ ∃ t, run walk (State.resetFor .halfStep) = .next t := ⟨by decide, _, rfl⟩

theorem witness_SpacingIrrelevant : ∃ t, run walk (State.resetFor .fullStep) = .next t := ⟨_, rfl⟩

end Sys2Proof.Tests
end

section
/-! PROOFS. The encodings of the pins and of the read byte (spec 30_encoding.md R44, R49). -/

namespace Sys2Proof.Encoding

open Sys2Proof.Machine Sys2Proof.Safety

/-! ### The pin pattern -/

/-- The pattern as a number: the shift doubles `pin_b` (R44). -/
theorem pinPattern_toNat (b a : Bit) : (pinPattern b a).toNat = 2 * b.toNat + a.toNat := by
  revert b a; decide

/-- Settles O18: the value and the two bits are facts of the pattern; what the two commands sample is that pattern by
definition. -/
theorem pinPatternOfLevels : Obligations.PinPatternOfLevels :=
  fun _ b a => ⟨pinPattern_toNat b a, pinPattern_high b a, pinPattern_low b a, rfl, rfl⟩

/-! ### The read byte -/

/-- The count fits in bits 6..0, so the mask of R49 keeps all of it. -/
theorem setWidth_and_mask (acc : Acc) : acc.setWidth 8 &&& 0x7F#8 = acc.setWidth 8 := by
  apply BitVec.eq_of_toNat_eq
  have hacc : acc.toNat < 2 ^ 7 := acc.isLt
  have hmask : acc.toNat &&& 127 = acc.toNat := Nat.and_two_pow_sub_one_of_lt_two_pow hacc
  simp [hmask, Nat.mod_eq_of_lt (show acc.toNat < 256 by omega)]

/-- Every command that issues READ answers a next state where PROCESS, if it issues that too, does not stop, and drives the
read byte of the registers as they stood. PROCESS_READ takes that byte before its table step writes them
(41_read.md R67). -/
theorem exec_readOut_of_issuesRead {i : Instr} {s : State} (hread : issuesRead i = true)
    (hrun : Legal s ∨ issuesProcess i = false) :
    ∃ t, exec i s = .next t ∧ t.readOut = readByte s.swState s.acc := by
  cases i with
  | reset | nop | process => cases hread
  | read => exact ⟨_, rfl, rfl⟩
  | processRead sw b a =>
    have hlegal : Legal s := hrun.resolve_right (by simp [issuesProcess])
    exact ⟨_, processFrom_legal 0#7 (readByte s.swState s.acc) sw b a hlegal, rfl⟩

/-- Settles O25: the read byte is that of the registers as they stood, and its format is `readByte`'s. -/
theorem readByteFormat : Obligations.ReadByteFormat := by
  intro i s hread hrun
  obtain ⟨t, hexec, hout⟩ := exec_readOut_of_issuesRead hread hrun
  refine ⟨t, hexec, ?_⟩
  rw [hout, setWidth_and_mask]
  exact ⟨readSwitch_readByte s.swState s.acc, readByte_rotation s.swState s.acc, rfl⟩

end Sys2Proof.Encoding
end

section
/-! PROOFS. PROCESS and its parts (spec 40_process.md R56 to R62): the entry it reads, the state it answers, and what the
status byte and the accumulator say of that entry. -/

namespace Sys2Proof.Process

open Sys2Proof.Machine Sys2Proof.Safety

/-! ### The entry and its byte (30_encoding.md R45) -/

@[simp] theorem byte_next (e : Entry) : e.byte.extractLsb' 0 4 = e.next := by
  obtain ⟨next, dir⟩ := e
  revert next; cases dir <;> decide

@[simp] theorem byte_dir (e : Entry) : e.byte.extractLsb' 4 2 = e.dir.code := by
  obtain ⟨next, dir⟩ := e
  revert next; cases dir <;> decide

/-- The entry a PROCESS with the contacts `b` and `a` reads in the state `s` (R59). -/
def entryAt (s : State) (b a : Bit) : Entry := tableRead s.table s.fsmState (pinPattern b a)

/-- The entry is the one whose byte stands in the ROM. -/
theorem memRead_entryAt {s : State} (hs : Legal s) (b a : Bit) :
    memRead s.table (romAddress s.fsmState (pinPattern b a)) = some (entryAt s b a).byte :=
  memRead_legal hs (pinPattern b a)

theorem entryAt_congr {s u : State} (htable : u.table = s.table) (hfsm : u.fsmState = s.fsmState) (b a : Bit) :
    entryAt u b a = entryAt s b a := by
  simp only [entryAt, htable, hfsm]

/-! ### The state PROCESS answers -/

/-- PROCESS from a legal state, in terms of the entry it reads. -/
theorem exec_process_legal {s : State} (hs : Legal s) (sw b a : Bit) :
    exec (.process sw b a) s =
      .next ((s.writeRegs (entryAt s b a).next (accStep (entryAt s b a).dir s.acc) (~~~sw)).drive
        (statusByte (~~~sw) (entryAt s b a).dir) 0x00#8) :=
  processFrom_legal s.acc 0x00#8 sw b a hs

/-- PROCESS_READ from a legal state stores the same switch level as PROCESS; it counts from 0 and drives the read byte. -/
theorem exec_processRead_legal {s : State} (hs : Legal s) (sw b a : Bit) :
    exec (.processRead sw b a) s =
      .next ((s.writeRegs (entryAt s b a).next (accStep (entryAt s b a).dir 0#7) (~~~sw)).drive
        (statusByte (~~~sw) (entryAt s b a).dir) (readByte s.swState s.acc)) :=
  processFrom_legal 0#7 (readByte s.swState s.acc) sw b a hs

/-! ### Direction codes, the accumulator step and the status byte -/

/-- The accumulator step as R56 writes it, by cases of the code in the entry's byte. -/
theorem accStep_eq_ite (d : Dir) (acc : Acc) :
    accStep d acc = if d.code = 1#2 then acc + 1#7 else if d.code = 2#2 then acc - 1#7 else acc := by
  cases d <;> rfl

theorem code_eq_zero_iff {d : Dir} : d.code = 0#2 ↔ d = .noEvent := by cases d <;> decide

theorem code_eq_one_iff {d : Dir} : d.code = 1#2 ↔ d = .cw := by cases d <;> decide

theorem code_eq_two_iff {d : Dir} : d.code = 2#2 ↔ d = .ccw := by cases d <;> decide

/-- The signed count rises by 1 everywhere but at its upper end. -/
theorem toInt_add_one {acc : Acc} (hend : acc ≠ 0x3F#7) : (acc + 1#7).toInt = acc.toInt + 1 := by
  revert acc; decide

/-- The signed count falls by 1 everywhere but at its lower end. -/
theorem toInt_sub_one {acc : Acc} (hend : acc ≠ 0x40#7) : (acc - 1#7).toInt = acc.toInt - 1 := by
  revert acc; decide

theorem sign_cases (d : Dir) : d.sign = -1 ∨ d.sign = 0 ∨ d.sign = 1 := by
  cases d with
  | noEvent => exact .inr (.inl rfl)
  | cw => exact .inr (.inr rfl)
  | ccw => exact .inl rfl

/-- The switch level and the code leave bits 7..3 of the status byte free. -/
theorem statusByte_high (sw : Bit) (d : Dir) : (statusByte sw d).extractLsb' 3 5 = 0#5 := by
  revert sw; cases d <;> decide

theorem decode_process (sw b a : Bit) : decode (0b001#3 ++ sw ++ b ++ a) = .process sw b a := by
  revert sw b a; decide

/-! ### The obligations -/

/-- Settles O14: `e` is the byte of the entry PROCESS reads, and each register written is a field of that byte. -/
theorem processEffect : Obligations.ProcessEffect := by
  refine ⟨decode_process, fun s sw b a hs => ⟨_, memRead_entryAt hs b a, ?_⟩⟩
  rw [exec_process_legal hs, byte_next, byte_dir, accStep_eq_ite]
  rfl

/-- Settles O19: whatever `sw_state` held, the state is still legal, and both forms write the inverse level. -/
theorem switchStoredInverted : Obligations.SwitchStoredInverted := fun s v sw b a hs =>
  have hv : Legal { s with swState := v } := hs
  ⟨⟨_, exec_process_legal hv sw b a, rfl⟩, ⟨_, exec_processRead_legal hv sw b a, rfl⟩⟩

/-- Settles O20: both states read the same entry; the next state and the code are its fields, and the NOP's status byte
is 0x00. -/
theorem fsmStepReadsTheTable : Obligations.FsmStepReadsTheTable := by
  intro s u sw sw' b a hs htable hfsm
  have hu : Legal u := by rw [Legal, htable, hfsm]; exact hs
  have hentry : entryAt u b a = entryAt s b a := entryAt_congr htable hfsm b a
  exact ⟨_, _, _, memRead_entryAt hs b a, exec_process_legal hs sw b a, by simp, by simp,
    exec_process_legal hu sw' b a, by simp [hentry], by simp [hentry], _, rfl, rfl⟩

/-- Settles O21: the reported code names the direction of the entry, and with it the accumulator step taken. -/
theorem accumulatorStep : Obligations.AccumulatorStep := by
  intro s sw b a hs
  refine ⟨_, exec_process_legal hs sw b a, ?_⟩
  simp only [State.drive_statusOut, statusDir_statusByte, State.drive_acc, State.writeRegs_acc]
  refine ⟨fun hcode => ?_, fun hcode => ?_, fun hcode => ?_⟩
  · rw [code_eq_one_iff.mp hcode]
    exact ⟨rfl, toInt_add_one, fun hend => by rw [hend]; rfl⟩
  · rw [code_eq_two_iff.mp hcode]
    exact ⟨rfl, toInt_sub_one, fun hend => by rw [hend]; rfl⟩
  · rw [code_eq_zero_iff.mp hcode]
    rfl

/-- Settles O22: the status byte is made of the level just stored and the code of the entry; another `acc` gives the same
entry, so the same byte. -/
theorem statusByteOfProcess : Obligations.StatusByteOfProcess := by
  intro s v sw b a hs
  have hv : Legal { s with acc := v } := hs
  refine ⟨_, _, _, memRead_entryAt hs b a, exec_process_legal hs sw b a, ?_, statusByte_high _ _,
    exec_process_legal hv sw b a, rfl⟩
  rw [byte_dir]
  rfl

/-- Settles O23: the events reported are the sign of the entry's direction, which is what the accumulator step adds. -/
theorem atMostOneEvent : Obligations.AtMostOneEvent := by
  intro s sw b a hs
  refine ⟨_, exec_process_legal hs sw b a, ?_⟩
  rw [State.drive_statusOut, statusEvents_statusByte]
  exact ⟨sign_cases _, accStep_eq_add _ _⟩

end Sys2Proof.Process
end

section
/-! PROOFS. READ (spec 41_read.md R64): its words, and the state it answers. -/

namespace Sys2Proof.Read

open Sys2Proof.Machine

/-- The strobes alone make a word a READ: the three pin bits are not looked at (R51). -/
theorem decode_read (x : BitVec 3) : decode (0b010#3 ++ x) = .read := by
  revert x; decide

/-- READ as the state's operations: the byte is taken from the registers as they stood before `acc` is cleared. -/
theorem exec_read (s : State) :
    exec .read s = .next (s.clearAcc.drive 0x00#8 (readByte s.swState s.acc)) := by
  rfl

/-- The two operations of READ as one record: `acc` and the outputs are written, every other field stands. -/
theorem clearAcc_drive (s : State) (status read : Byte) :
    s.clearAcc.drive status read = { s with acc := 0#7, statusOut := status, readOut := read } := by
  rfl

/-- Settles O13: the words decode by their strobes; the state is READ's two operations, with `readByte` written out. -/
theorem readEffect : Obligations.ReadEffect := by
  refine ⟨decode_read, fun s => ?_⟩
  rw [exec_read, clearAcc_drive, readByte]

end Sys2Proof.Read
end

section
/-! PROOFS. What one command can do, said once: RESET, a command that samples no pins, a command that samples them. The
frames, the invariants and the access table of the registers are read off it (spec 10_state.md R20, R27, 30_encoding.md
section 4, 41_read.md R68). -/

namespace Sys2Proof.Commands

open Sys2Proof.Machine Sys2Proof.Safety Sys2Proof.Process

/-! ### The three kinds of command -/

/-- The count a command starts from: a command that issues READ takes the accumulator away first (41_read.md section 3,
decision D4). -/
def startCount (i : Instr) (s : State) : Acc := if issuesRead i then 0#7 else s.acc

/-- What a command drives on `read_out`: the read byte of the registers as they stood where it issues READ, 0x00 where it
does not (41_read.md R68). -/
def readDriven (i : Instr) (s : State) : Byte := if issuesRead i then readByte s.swState s.acc else 0x00#8

/-- The state a command answers, by the kind of the command. -/
inductive Effect (i : Instr) (s : State) : State → Prop where
  | reset (hreset : i = .reset) : Effect i s ((s.writeRegs fsmStart 0#7 0#1).drive 0x00#8 0x00#8)
  | quiet (hsampled : sampled i = none) (hreset : isReset i = false) :
      Effect i s ((s.writeRegs s.fsmState (startCount i s) s.swState).drive 0x00#8 (readDriven i s))
  | sampling (sw b a : Bit) (hcommand : i = .process sw b a ∨ i = .processRead sw b a) (hlegal : Legal s) :
      Effect i s
        ((s.writeRegs (entryAt s b a).next (accStep (entryAt s b a).dir (startCount i s)) (~~~sw)).drive
          (statusByte (~~~sw) (entryAt s b a).dir) (readDriven i s))

/-- Whatever next state a command answers, it is the effect of one of the three kinds. -/
theorem exec_effect {i : Instr} {s t : State} (h : exec i s = .next t) : Effect i s t := by
  obtain ⟨rfl, rfl⟩ | ⟨rfl, rfl⟩ | ⟨rfl, rfl⟩ | ⟨sw, b, a, rfl, h⟩ | ⟨sw, b, a, rfl, h⟩ := exec_next_cases h
  · exact .reset rfl
  · exact .quiet (i := .nop) rfl rfl
  · exact .quiet (i := .read) rfl rfl
  · obtain ⟨hlegal, rfl⟩ := (processFrom_next_iff ..).mp h
    exact .sampling (i := .process sw b a) sw b a (.inl rfl) hlegal
  · obtain ⟨hlegal, rfl⟩ := (processFrom_next_iff ..).mp h
    exact .sampling (i := .processRead sw b a) sw b a (.inr rfl) hlegal

/-- Only PROCESS on an illegal `fsm_state` stops: every other command answers a next state (10_state.md R20). -/
theorem exec_completes {i : Instr} {s : State} (h : Legal s ∨ issuesProcess i = false) : ∃ t, exec i s = .next t := by
  cases i with
  | reset | nop | read => exact ⟨_, rfl⟩
  | process sw b a => exact ⟨_, exec_process_legal (h.resolve_right (by simp [issuesProcess])) sw b a⟩
  | processRead sw b a => exact ⟨_, exec_processRead_legal (h.resolve_right (by simp [issuesProcess])) sw b a⟩

/-! ### The kinds and the tests on commands -/

theorem isNop_iff {i : Instr} : isNop i = true ↔ i = .nop := by cases i <;> simp [isNop]

/-- A command samples the pins exactly when it issues PROCESS (10_state.md R27). -/
theorem sampled_eq_none_iff {i : Instr} : sampled i = none ↔ issuesProcess i = false := by
  cases i <;> simp [sampled, issuesProcess]

/-- The pattern a PROCESS or PROCESS_READ samples is that of its two contacts. -/
theorem sampled_of_command {i : Instr} {sw b a : Bit} (h : i = .process sw b a ∨ i = .processRead sw b a) :
    sampled i = some (pinPattern b a) := by
  obtain rfl | rfl := h <;> rfl

theorem issuesProcess_of_command {i : Instr} {sw b a : Bit} (h : i = .process sw b a ∨ i = .processRead sw b a) :
    issuesProcess i = true := by
  obtain rfl | rfl := h <;> rfl

theorem isReset_of_command {i : Instr} {sw b a : Bit} (h : i = .process sw b a ∨ i = .processRead sw b a) :
    isReset i = false := by
  obtain rfl | rfl := h <;> rfl

/-! ### What every command keeps -/

theorem exec_table {i : Instr} {s t : State} (h : exec i s = .next t) : t.table = s.table := by
  cases exec_effect h <;> rfl

theorem exec_hostWords {i : Instr} {s t : State} (h : exec i s = .next t) : t.hostWords = s.hostWords := by
  cases exec_effect h <;> rfl

theorem exec_draws {i : Instr} {s t : State} (h : exec i s = .next t) : t.draws = s.draws := by
  cases exec_effect h <;> rfl

/-- Every command keeps `fsm_state` legal: RESET writes START, and the tables are closed. -/
theorem exec_legal {i : Instr} {s t : State} (hs : Legal s) (h : exec i s = .next t) : Legal t := by
  cases exec_effect h with
  | reset => exact fsmLegal_start s.table
  | quiet => exact hs
  | sampling sw b a => exact tableRead_legal hs (pinPattern b a)

/-- READ before PROCESS (decision D4): the host reads out of `acc` what the command starts without. -/
theorem readDriven_add_startCount (i : Instr) (s : State) :
    (readDriven i s).extractLsb' 0 7 + startCount i s = s.acc := by
  unfold readDriven startCount
  split
  · rw [readByte_rotation, BitVec.add_zero]
  · exact BitVec.zero_add s.acc

/-- The conservation law of one command: what is read out and what stays are what was there and the event reported
(70_reset_and_hazards.md section 3). -/
theorem exec_conserves {i : Instr} {s t : State} (hreset : isReset i = false) (h : exec i s = .next t) :
    t.readOut.extractLsb' 0 7 + t.acc = s.acc + BitVec.ofInt 7 (statusEvents t.statusOut) := by
  cases exec_effect h with
  | reset hi => simp [hi, isReset] at hreset
  | quiet => simp [readDriven_add_startCount]
  | sampling sw b a =>
    simp only [State.drive_readOut, State.drive_acc, State.writeRegs_acc, State.drive_statusOut,
      statusEvents_statusByte, accStep_eq_add, ← BitVec.add_assoc, readDriven_add_startCount]

/-! ### Frames and outputs -/

/-- Settles O31: a ROM byte is a function of the table, and no command writes the table. -/
theorem commandsKeepTableAndRom : Obligations.CommandsKeepTableAndRom := fun _ _ _ h =>
  ⟨exec_table h, fun addr => by rw [exec_table h], exec_hostWords h, exec_draws h⟩

/-- Settles O27: the status byte is driven by the sampling commands alone, and `readDriven` is 0x00 without READ. -/
theorem outputsZeroWhenNotDriven : Obligations.OutputsZeroWhenNotDriven := by
  intro i s t h
  cases exec_effect h with
  | reset => exact ⟨fun _ => rfl, fun _ => rfl⟩
  | quiet => exact ⟨fun _ => rfl, fun hread => by simp [readDriven, hread]⟩
  | sampling sw b a hcommand =>
    refine ⟨fun hprocess => ?_, fun hread => by simp [readDriven, hread]⟩
    simp [issuesProcess_of_command hcommand] at hprocess

/-- The values of a status byte, one for each switch level and direction (30_encoding.md R48). -/
theorem statusByte_inRange (sw : Bit) (d : Dir) : StatusInRange (statusByte sw d) := by
  revert sw; cases d <;> decide

/-- Settles O28: the status byte is made of the level just stored and a direction code. -/
theorem statusByteFormat : Obligations.StatusByteFormat := by
  intro i s t hprocess h
  cases exec_effect h with
  | reset hi => simp [hi, issuesProcess] at hprocess
  | quiet hsampled => simp [sampled_eq_none_iff.mp hsampled] at hprocess
  | sampling sw b a => exact ⟨statusSwitch_statusByte _ _, statusByte_high _ _, statusByte_inRange _ _⟩

/-- A direction without an event leaves the count. -/
theorem accStep_of_code_zero {d : Dir} (h : d.code = 0#2) (acc : Acc) : accStep d acc = acc := by
  rw [code_eq_zero_iff.mp h]; rfl

/-- Settles O32: each clause excludes the kinds of command that write the register. -/
theorem registerAccess : Obligations.RegisterAccess := by
  intro i s t h
  cases exec_effect h with
  | reset hi =>
    subst hi
    simp [isReset, isNop, issuesRead]
  | quiet hsampled =>
    refine ⟨fun _ _ => ⟨rfl, rfl⟩, fun hnop => ?_, fun hread _ _ => ?_, fun hread _ => ?_⟩
    · rw [isNop_iff.mp hnop]; rfl
    all_goals simp [startCount, hread]
  | sampling sw b a hcommand =>
    have hprocess := issuesProcess_of_command hcommand
    refine ⟨fun hno => ?_, fun hnop => ?_, fun hread _ hdir => ?_, fun _ hno => ?_⟩
    · simp [hprocess] at hno
    · simp [isNop_iff.mp hnop, issuesProcess] at hprocess
    · rw [State.drive_statusOut, statusDir_statusByte] at hdir
      simp [accStep_of_code_zero hdir, startCount, hread]
    · simp [hprocess] at hno

/-- Settles O33: of the three kinds only the sampling one reads `fsm_state`. -/
theorem fsmStateHidden : Obligations.FsmStateHidden := by
  intro i s f hprocess
  cases i with
  | reset | nop | read => exact ⟨_, _, rfl, rfl, rfl, rfl, rfl, rfl⟩
  | process | processRead => cases hprocess

/-! ### Invariants -/

/-- The status byte of a command that samples nothing reports no press. -/
theorem statusSwitch_zero : statusSwitch 0x00#8 ≠ 1#1 := by decide

/-- The status byte reports a press only where `sw_state` holds one: RESET and the quiet commands report none, and a
sampling command reports the level it stores. -/
theorem exec_blockInv {i : Instr} {s t : State} (hs : Legal s) (h : exec i s = .next t) : BlockInv t := by
  refine ⟨exec_legal hs h, ?_⟩
  cases exec_effect h with
  | reset | quiet => exact ⟨.inl rfl, fun hpressed => absurd hpressed statusSwitch_zero⟩
  | sampling sw b a =>
    exact ⟨statusByte_inRange _ _, fun hpressed => (statusSwitch_statusByte _ _).symm.trans hpressed⟩

/-- Settles O38: taking the cycle's word leaves the registers, and every command keeps the invariant. -/
theorem invariantKeptByStep : Obligations.InvariantKeptByStep := by
  intro s t hs h
  obtain ⟨hlegal, -, -⟩ := hs
  have hconsumed : Legal s.consume := by simpa [Legal] using hlegal
  exact exec_blockInv hconsumed h

/-- Settles O37: START is legal and the status byte is 0x00, whichever table `Config.table` is. -/
theorem invariantAtReset : Obligations.InvariantAtReset := by
  have hreset (t : Table) : BlockInv (State.resetFor t) :=
    ⟨fsmLegal_start t, .inl rfl, fun hpressed => absurd hpressed statusSwitch_zero⟩
  exact ⟨hreset Config.table, hreset⟩

end Sys2Proof.Commands
end

section
/-! PROOFS. The two transition tables (spec 42_transition_tables.md): their bytes, and what PROCESS does at the states and
patterns the spec lists. Each fact about the entries is a check of all states and patterns of one table; the obligations
carry it over to PROCESS. -/

namespace Sys2Proof.Tables

open Sys2Proof.Machine Sys2Proof.Safety Sys2Proof.Process Sys2Proof.Commands

/-! ### The bytes of the ROM -/

/-- The two top bits of an entry's byte are not used (30_encoding.md R45). -/
theorem byte_high (e : Entry) : e.byte.extractLsb' 6 2 = 0#2 := by
  obtain ⟨next, dir⟩ := e
  revert next; cases dir <;> decide

/-- The reserved code (30_encoding.md R47). -/
theorem code_ne_three (d : Dir) : d.code ≠ 3#2 := by cases d <;> decide

theorem byte_toNat (e : Entry) : e.byte.toNat = 16 * e.dir.code.toNat + e.next.toNat := by
  obtain ⟨next, dir⟩ := e
  revert next; cases dir <;> decide

/-- Settles O40: the fields of the byte, and its value. -/
theorem entryByteFormat : Obligations.EntryByteFormat := fun e =>
  ⟨byte_next e, byte_dir e, byte_high e, code_ne_three e.dir, byte_toNat e⟩

/-- Settles O41, by reading all 64 addresses. -/
theorem halfStepTableBytes : Obligations.HalfStepTableBytes := by
  unfold Obligations.HalfStepTableBytes; decide

/-- Settles O42, by reading all 64 addresses. -/
theorem fullStepTableBytes : Obligations.FullStepTableBytes := by
  unfold Obligations.FullStepTableBytes; decide

/-- Settles O43: the byte at a legal state is that of an entry, whose next state is legal. -/
theorem tablesTotalAndClosed : Obligations.TablesTotalAndClosed := by
  intro t s p hs
  refine ⟨_, memRead_legal hs p, ?_, ?_, byte_high _⟩
  · rw [byte_next]; exact tableRead_legal hs p
  · rw [byte_dir]; exact code_ne_three _

/-! ### Entries at the listed states and patterns -/

/-- The states and patterns whose entry emits an event (42_transition_tables.md section 4). -/
theorem dir_ne_noEvent_iff {t : Table} {s : FsmCode} (hs : fsmLegal t s = true) (p : PinPattern) :
    (tableRead t s p).dir ≠ .noEvent ↔
      (t = .halfStep ∧ p = 0b11#2 ∧ (s = Half.cwBegin ∨ s = Half.ccwBegin)) ∨
      (t = .halfStep ∧ p = 0b00#2 ∧ (s = Half.cwBeginMirror ∨ s = Half.ccwBeginMirror)) ∨
      (t = .fullStep ∧ p = 0b00#2 ∧ (s = Full.cwFinal ∨ s = Full.ccwFinal)) := by
  revert p s; cases t <;> decide

/-- An emission at `11` is a half-step one. -/
theorem next_of_event_at_eleven {t : Table} {s : FsmCode} (hdir : (tableRead t s 0b11#2).dir ≠ .noEvent) :
    (tableRead t s 0b11#2).next = Half.startMirror := by
  revert s; cases t <;> decide

theorem next_of_event_at_zero {t : Table} {s : FsmCode} (hdir : (tableRead t s 0b00#2).dir ≠ .noEvent) :
    (tableRead t s 0b00#2).next = fsmStart := by
  revert s; cases t <;> decide

/-- Events are emitted only on arriving at a rest position (42_transition_tables.md R86 (a)). -/
theorem restPattern_of_event {t : Table} {s : FsmCode} {p : PinPattern} (hdir : (tableRead t s p).dir ≠ .noEvent) :
    restPattern t p = true := by
  revert p s; cases t <;> decide

/-- The entry two bits away from a pattern that the state rests at (42_transition_tables.md R87). -/
theorem tableRead_twoBits {t : Table} {s : FsmCode} {p : PinPattern} (hs : fsmLegal t s = true)
    (hrest : (tableRead t s p).next = s) :
    tableRead t s (~~~p) =
      quiet (if t = .halfStep ∧ (s = fsmStart ∨ s = Half.cwBeginMirror ∨ s = Half.ccwBeginMirror)
        then Half.startMirror else fsmStart) := by
  revert p s; cases t <;> decide

/-- A repeated pattern emits nothing (40_process.md R63). -/
theorem dir_of_repeated {t : Table} {s : FsmCode} (hs : fsmLegal t s = true) (p : PinPattern) :
    (tableRead t (tableRead t s p).next p).dir = .noEvent := by
  revert p s; cases t <;> decide

/-- A pattern seen three times: the third entry leads where the second did (40_process.md R63). -/
theorem next_of_thrice {t : Table} {s : FsmCode} (hs : fsmLegal t s = true) (p : PinPattern) :
    (tableRead t (tableRead t (tableRead t s p).next p).next p).next = (tableRead t (tableRead t s p).next p).next := by
  revert p s; cases t <;> decide

/-- The four cases of each table in which the repeat of a pattern moves the state (40_process.md R63). -/
theorem next_of_repeated_ne_iff {t : Table} {s : FsmCode} (hs : fsmLegal t s = true) (p : PinPattern) :
    (tableRead t (tableRead t s p).next p).next ≠ (tableRead t s p).next ↔
      (t = .halfStep ∧
        ((s = Half.ccwBegin ∨ s = Half.cwBeginMirror) ∧ p = 0b10#2 ∨
         (s = Half.cwBegin ∨ s = Half.ccwBeginMirror) ∧ p = 0b01#2)) ∨
      (t = .fullStep ∧
        ((s = Full.cwFinal ∨ s = Full.ccwBegin) ∧ p = 0b10#2 ∨
         (s = Full.cwBegin ∨ s = Full.ccwFinal) ∧ p = 0b01#2)) := by
  revert p s; cases t <;> decide

/-! ### The same of PROCESS -/

/-- PROCESS on a legal state, register by register, for the entry it reads. -/
theorem exec_process_registers {s : State} (hs : Legal s) (sw b a : Bit) :
    ∃ t, exec (.process sw b a) s = .next t ∧ t.table = s.table ∧
      t.fsmState = (tableRead s.table s.fsmState (pinPattern b a)).next ∧
      t.acc = accStep (tableRead s.table s.fsmState (pinPattern b a)).dir s.acc ∧
      statusDir t.statusOut = (tableRead s.table s.fsmState (pinPattern b a)).dir.code :=
  ⟨_, exec_process_legal hs sw b a, rfl, rfl, rfl, statusDir_statusByte _ _⟩

/-- Settles O45: the reported code is not 0 exactly where the entry emits. -/
theorem emissionPositions : Obligations.EmissionPositions := by
  intro s sw b a hs
  obtain ⟨t, hexec, -, hfsm, -, hdir⟩ := exec_process_registers hs sw b a
  refine ⟨t, hexec, ?_⟩
  rw [hdir, hfsm, Ne, code_eq_zero_iff]
  refine ⟨dir_ne_noEvent_iff hs _, fun hevent hpattern => ?_, fun hevent hpattern => ?_⟩
  · rw [hpattern] at hevent ⊢; exact next_of_event_at_eleven hevent
  · rw [hpattern] at hevent ⊢; exact next_of_event_at_zero hevent

theorem pinPattern_not (b a : Bit) : pinPattern (~~~b) (~~~a) = ~~~pinPattern b a := by
  revert b a; decide

/-- Settles O46: the premise says that the entry at the pattern leads back to the state; the entry at the inverted contacts
is then the quiet one listed. -/
theorem twoBitJumps : Obligations.TwoBitJumps := by
  intro s sw b a hs ⟨e, hbyte, hrest⟩
  have hback : (tableRead s.table s.fsmState (pinPattern b a)).next = s.fsmState := by
    obtain rfl : (entryAt s b a).byte = e := Option.some.inj ((memRead_entryAt hs b a).symm.trans hbyte)
    rwa [byte_next] at hrest
  obtain ⟨t, hexec, -, hfsm, hacc, hdir⟩ := exec_process_registers hs sw (~~~b) (~~~a)
  rw [pinPattern_not, tableRead_twoBits hs hback] at hfsm hacc hdir
  exact ⟨t, hexec, hdir, hacc, hfsm⟩

/-- Settles O24: the three entries are those of the table at one pattern, each at the state the one before it leads to. -/
theorem repeatedPatternSettles : Obligations.RepeatedPatternSettles := by
  intro s sw1 sw2 sw3 b a hs
  obtain ⟨t, hexec1, htable1, hfsm1, -, -⟩ := exec_process_registers hs sw1 b a
  have ht : Legal t := exec_legal hs hexec1
  obtain ⟨u, hexec2, htable2, hfsm2, hacc2, hdir2⟩ := exec_process_registers ht sw2 b a
  have hu : Legal u := exec_legal ht hexec2
  obtain ⟨v, hexec3, -, hfsm3, hacc3, hdir3⟩ := exec_process_registers hu sw3 b a
  have hquiet2 : (tableRead t.table t.fsmState (pinPattern b a)).dir = .noEvent := by
    rw [htable1, hfsm1]; exact dir_of_repeated hs _
  have hquiet3 : (tableRead u.table u.fsmState (pinPattern b a)).dir = .noEvent := by
    rw [htable2, hfsm2]; exact dir_of_repeated ht _
  rw [hquiet2] at hacc2 hdir2
  rw [hquiet3] at hacc3 hdir3
  refine ⟨t, u, v, hexec1, hexec2, hexec3, hdir2, hacc2, hdir3, hacc3.trans hacc2, ?_, ?_⟩
  · rw [hfsm3, htable2, hfsm2, htable1, hfsm1]; exact next_of_thrice hs _
  · rw [hfsm2, htable1, hfsm1]; exact next_of_repeated_ne_iff hs _

/-! ### Runs of PROCESS along a list of patterns -/

/-- The state the table leads to along a list of patterns. -/
def walkState (t : Table) : FsmCode → List PinPattern → FsmCode
  | s, [] => s
  | s, p :: ps => walkState t (tableRead t s p).next ps

/-- The directions of the entries along a list of patterns. -/
def walkDirs (t : Table) : FsmCode → List PinPattern → List Dir
  | _, [] => []
  | s, p :: ps => (tableRead t s p).dir :: walkDirs t (tableRead t s p).next ps

/-- `PROCESS BA, SW` as a line writes it, register by register. -/
theorem exec_processLine {s : State} (hs : Legal s) (p : PinPattern) (sw : Bit) :
    ∃ t, exec (processLine p sw) s = .next t ∧ t.table = s.table ∧
      t.fsmState = (tableRead s.table s.fsmState p).next ∧
      t.acc = accStep (tableRead s.table s.fsmState p).dir s.acc ∧
      statusDir t.statusOut = (tableRead s.table s.fsmState p).dir.code := by
  have h := exec_process_registers hs sw (p.extractLsb' 1 1) (p.extractLsb' 0 1)
  rwa [pinPattern_of_levels] at h

theorem feed_cons (p : PinPattern) (ps : List PinPattern) (sw : Bit) :
    feed (p :: ps) sw = processLine p sw :: feed ps sw := rfl

/-- FEED from a legal state walks the table and reports the entries' directions (30_encoding.md R55). -/
theorem run_feed {s : State} (hs : Legal s) (ps : List PinPattern) (sw : Bit) :
    ∃ t, run (feed ps sw) s = .next t ∧ Legal t ∧ t.table = s.table ∧
      t.fsmState = walkState s.table s.fsmState ps ∧
      t.acc = (walkDirs s.table s.fsmState ps).foldl (fun acc d => accStep d acc) s.acc ∧
      reported (feed ps sw) s = (walkDirs s.table s.fsmState ps).map Dir.code := by
  induction ps generalizing s with
  | nil => exact ⟨s, rfl, hs, rfl, rfl, rfl, rfl⟩
  | cons p ps ih =>
    obtain ⟨t, hexec, htable, hfsm, hacc, hdir⟩ := exec_processLine hs p sw
    obtain ⟨u, hrun, hu, hutable, hufsm, huacc, hreported⟩ := ih (exec_legal hs hexec)
    rw [htable, hfsm] at hufsm huacc hreported
    rw [feed_cons, run_cons_next hexec, reported_cons_next hexec, hdir, hreported]
    exact ⟨u, hrun, hu, hutable.trans htable, hufsm, by rw [huacc, hacc]; rfl, rfl⟩

/-- Quiet entries leave the count. -/
theorem foldl_accStep_quiet (n : Nat) (acc : Acc) :
    (List.replicate n Dir.noEvent).foldl (fun acc d => accStep d acc) acc = acc := by
  induction n with
  | zero => rfl
  | succ n ih => exact ih

/-- A detent: patterns whose entries are quiet, and a last pattern `q` whose entry emits `d` and leads to `g`. -/
theorem detent {s : State} {ps : List PinPattern} {q : PinPattern} {g : FsmCode} {d : Dir} (sw : Bit) (hs : Legal s)
    (hquiet : walkDirs s.table s.fsmState ps = List.replicate ps.length .noEvent)
    (hlast : tableRead s.table (walkState s.table s.fsmState ps) q = ⟨g, d⟩) :
    ∃ t u, run (feed ps sw) s = .next t ∧ t.acc = s.acc ∧
      reported (feed ps sw) s = List.replicate ps.length 0#2 ∧
      exec (processLine q sw) t = .next u ∧ statusDir u.statusOut = d.code ∧ u.acc = accStep d s.acc ∧
      u.fsmState = g := by
  obtain ⟨t, hrun, ht, htable, hfsm, hacc, hreported⟩ := run_feed hs ps sw
  obtain ⟨u, hexec, -, hufsm, huacc, hudir⟩ := exec_processLine ht q sw
  have hkept : t.acc = s.acc := by rw [hacc, hquiet, foldl_accStep_quiet]
  rw [htable, hfsm, hlast] at hufsm huacc hudir
  refine ⟨t, u, hrun, hkept, ?_, hexec, hudir, by rw [huacc, hkept], hufsm⟩
  rw [hreported, hquiet, List.map_replicate]; rfl

/-- A detent of two patterns. -/
theorem detent_pair {s : State} {p q : PinPattern} {f g : FsmCode} {d : Dir} (sw : Bit) (hs : Legal s)
    (hfirst : tableRead s.table s.fsmState p = quiet f) (hlast : tableRead s.table f q = ⟨g, d⟩) :
    ∃ t u, exec (processLine p sw) s = .next t ∧ t.acc = s.acc ∧ statusDir t.statusOut = 0#2 ∧
      exec (processLine q sw) t = .next u ∧ statusDir u.statusOut = d.code ∧ u.acc = accStep d s.acc ∧
      u.fsmState = g := by
  obtain ⟨t, hexec, htable, hfsm, hacc, hdir⟩ := exec_processLine hs p sw
  obtain ⟨u, huexec, -, hufsm, huacc, hudir⟩ := exec_processLine (exec_legal hs hexec) q sw
  rw [hfirst] at hfsm hacc hdir
  rw [htable, hfsm, show (quiet f).next = f from rfl, hlast] at hufsm huacc hudir
  exact ⟨t, u, hexec, hacc, hdir, huexec, hudir, by rw [huacc, hacc]; rfl, hufsm⟩

/-- Settles O47: the entries along each of the six detents. -/
theorem cleanDetents : Obligations.CleanDetents := by
  intro s sw
  have hlegal {t : Table} {f : FsmCode} (htable : s.table = t) (hfsm : s.fsmState = f) (hf : fsmLegal t f = true) :
      Legal s := by rw [Legal, htable, hfsm, hf]
  refine ⟨fun htable hfsm => ?_, fun htable hfsm => ?_, fun htable hfsm => ?_⟩
  all_goals have hs : Legal s := hlegal htable hfsm (by decide)
  · exact ⟨detent (d := .cw) sw hs (by rw [htable, hfsm]; rfl) (by rw [htable, hfsm]; rfl),
      detent (d := .ccw) sw hs (by rw [htable, hfsm]; rfl) (by rw [htable, hfsm]; rfl)⟩
  · exact ⟨detent_pair (d := .cw) sw hs (f := Half.cwBegin) (by rw [htable, hfsm]; rfl) (by rw [htable]; rfl),
      detent_pair (d := .ccw) sw hs (f := Half.ccwBegin) (by rw [htable, hfsm]; rfl) (by rw [htable]; rfl)⟩
  · exact ⟨detent_pair (d := .cw) sw hs (f := Half.cwBeginMirror) (by rw [htable, hfsm]; rfl) (by rw [htable]; rfl),
      detent_pair (d := .ccw) sw hs (f := Half.ccwBeginMirror) (by rw [htable, hfsm]; rfl) (by rw [htable]; rfl)⟩

/-- Patterns that lead from START to each legal state. -/
def pathTo : Table → FsmCode → List PinPattern
  | .halfStep, f =>
    if f = Half.ccwBegin then [0b01#2]
    else if f = Half.cwBegin then [0b10#2]
    else if f = Half.startMirror then [0b11#2]
    else if f = Half.cwBeginMirror then [0b11#2, 0b01#2]
    else if f = Half.ccwBeginMirror then [0b11#2, 0b10#2]
    else []
  | .fullStep, f =>
    if f = Full.cwFinal then [0b10#2, 0b11#2, 0b01#2]
    else if f = Full.cwBegin then [0b10#2]
    else if f = Full.cwNext then [0b10#2, 0b11#2]
    else if f = Full.ccwBegin then [0b01#2]
    else if f = Full.ccwFinal then [0b01#2, 0b11#2, 0b10#2]
    else if f = Full.ccwNext then [0b01#2, 0b11#2]
    else []

/-- The path to a legal state ends there. -/
theorem walkState_pathTo {t : Table} {f : FsmCode} (hf : fsmLegal t f = true) :
    walkState t fsmStart (pathTo t f) = f := by
  revert f; cases t <;> decide

/-- Every command of a FEED is a PROCESS. -/
theorem feed_process {ps : List PinPattern} {sw : Bit} {i : Instr} (h : i ∈ feed ps sw) :
    issuesProcess i = true ∧ issuesRead i = false := by
  obtain ⟨p, -, rfl⟩ := List.mem_map.mp h
  exact ⟨rfl, rfl⟩

/-- Settles O44: FEED of the state's path. -/
theorem everyLegalStateReachable : Obligations.EveryLegalStateReachable := by
  intro t f hf
  obtain ⟨s, hrun, -, -, hfsm, -, -⟩ := run_feed (fsmLegal_start t) (s := State.resetFor t) (pathTo t f) 0#1
  exact ⟨feed (pathTo t f) 0#1, s, fun _ => feed_process, hrun, hfsm.trans (walkState_pathTo hf)⟩

end Sys2Proof.Tables
end

section
/-! PROOFS. Counting along gray-code walks (spec 42_transition_tables.md R86 to R88): the offset `k*E - D` is kept by every
command, hence along every run, and what follows at rest positions. -/

namespace Sys2Proof.Counting

open Sys2Proof.Machine Sys2Proof.Safety Sys2Proof.Process Sys2Proof.Commands Sys2Proof.Tables

/-! ### One command -/

/-- A command that samples a pattern takes the table's entry there. -/
theorem exec_of_sampled {i : Instr} {s : State} {q : PinPattern} (hs : Legal s) (hq : sampled i = some q) :
    ∃ t, exec i s = .next t ∧ t.table = s.table ∧ t.fsmState = (tableRead s.table s.fsmState q).next ∧
      statusEvents t.statusOut = (tableRead s.table s.fsmState q).dir.sign := by
  obtain ⟨t, hexec⟩ := exec_completes (i := i) (.inl hs)
  refine ⟨t, hexec, exec_table hexec, ?_⟩
  cases exec_effect hexec with
  | reset hi => simp [hi, sampled] at hq
  | quiet hnone => simp [hnone] at hq
  | sampling sw b a hcommand =>
    obtain rfl : pinPattern b a = q := Option.some.inj ((sampled_of_command hcommand).symm.trans hq)
    exact ⟨rfl, statusEvents_statusByte _ _⟩

/-- A command that samples nothing, and is no RESET, reports no event and keeps `fsm_state`. -/
theorem exec_of_unsampled {i : Instr} {s : State} (hnone : sampled i = none) (hreset : isReset i = false) :
    ∃ t, exec i s = .next t ∧ t.table = s.table ∧ t.fsmState = s.fsmState ∧ statusEvents t.statusOut = 0 := by
  obtain ⟨t, hexec⟩ := exec_completes (s := s) (.inr (sampled_eq_none_iff.mp hnone))
  refine ⟨t, hexec, exec_table hexec, ?_⟩
  cases exec_effect hexec with
  | reset hi => simp [hi, isReset] at hreset
  | quiet => exact ⟨rfl, statusEvents_zero⟩
  | sampling sw b a hcommand => simp [sampled_of_command hcommand] at hnone

/-! ### The offsets and the tables -/

/-- A state with an exact offset is a state of the table. -/
theorem fsmLegal_of_exactOffset {t : Table} {s : FsmCode} {p : PinPattern} {d : Int} (h : exactOffset t s p = some d) :
    fsmLegal t s = true := by
  have all : ∀ (s : FsmCode) (p : PinPattern), (exactOffset t s p).isSome = true → fsmLegal t s = true := by
    cases t <;> decide
  exact all s p (by rw [h]; rfl)

/-- An entry at an equal or neighbouring pattern changes the exact offset by `k` per event less the quarter step. -/
theorem exactOffset_next {t : Table} {s : FsmCode} {p q : PinPattern} {d : Int} (h : exactOffset t s p = some d)
    (hgray : p ^^^ q ≠ 0b11#2) :
    exactOffset t (tableRead t s q).next q =
      some (d + quartersPerEvent t * (tableRead t s q).dir.sign - quarterStep p q) := by
  have all : ∀ (s : FsmCode) (p q : PinPattern), p ^^^ q ≠ 0b11#2 → ∀ d ∈ exactOffset t s p,
      exactOffset t (tableRead t s q).next q =
        some (d + quartersPerEvent t * (tableRead t s q).dir.sign - quarterStep p q) := by
    cases t <;> decide
  exact all s p q hgray d h

/-- At a rest position the exact offset is 0. -/
theorem exactOffset_of_rest {t : Table} {s : FsmCode} {p : PinPattern} {d : Int} (hrest : restPattern t p = true)
    (h : exactOffset t s p = some d) : d = 0 := by
  have all : ∀ (s : FsmCode) (p : PinPattern), restPattern t p = true → ∀ d ∈ exactOffset t s p, d = 0 := by
    cases t <;> decide
  exact all s p hrest d h

/-- Every shift of a walk's offset stays within the bounds of its first pattern. -/
theorem exactOffset_bounds {t : Table} {p0 : PinPattern} {c : Int} (hc : c ∈ walkShifts t p0) {s : FsmCode}
    {p : PinPattern} {d : Int} (h : exactOffset t s p = some d) :
    (walkBounds t p0).1 ≤ d + c ∧ d + c ≤ (walkBounds t p0).2 := by
  have all : ∀ (p0 : PinPattern), ∀ c ∈ walkShifts t p0, ∀ (s : FsmCode) (p : PinPattern), ∀ d ∈ exactOffset t s p,
      (walkBounds t p0).1 ≤ d + c ∧ d + c ≤ (walkBounds t p0).2 := by
    cases t <;> decide
  exact all p0 c hc s p d h

/-- Full-step START still waiting at `11`: another `11` waits on, a neighbour starts a cycle in one direction. -/
theorem walkOffset_of_waiting {q : PinPattern} (hgray : 0b11#2 ^^^ q ≠ 0b11#2) :
    walkOffset .fullStep 0b11#2 (tableRead .fullStep fsmStart q).next q
      (0 + quartersPerEvent .fullStep * (tableRead .fullStep fsmStart q).dir.sign - quarterStep 0b11#2 q) := by
  unfold walkOffset
  revert q; decide

/-- An entry at an equal or neighbouring pattern keeps the offset of a walk, as it keeps the exact one. -/
theorem walkOffset_next {t : Table} {p0 p q : PinPattern} {s : FsmCode} {o : Int} (h : walkOffset t p0 s p o)
    (hgray : p ^^^ q ≠ 0b11#2) :
    walkOffset t p0 (tableRead t s q).next q
      (o + quartersPerEvent t * (tableRead t s q).dir.sign - quarterStep p q) := by
  obtain ⟨c, hc, hexact⟩ | ⟨rfl, rfl, rfl, rfl, rfl⟩ := h
  · exact .inl ⟨c, hc, by rw [exactOffset_next hexact hgray]; congr 1; ring⟩
  · exact walkOffset_of_waiting hgray

theorem fsmLegal_of_walkOffset {t : Table} {p0 p : PinPattern} {s : FsmCode} {o : Int} (h : walkOffset t p0 s p o) :
    fsmLegal t s = true := by
  obtain ⟨c, -, hexact⟩ | ⟨rfl, -, rfl, -, -⟩ := h
  · exact fsmLegal_of_exactOffset hexact
  · exact fsmLegal_start .fullStep

theorem walkOffset_bounds {t : Table} {p0 p : PinPattern} {s : FsmCode} {o : Int} (h : walkOffset t p0 s p o) :
    (walkBounds t p0).1 ≤ o ∧ o ≤ (walkBounds t p0).2 := by
  obtain ⟨c, hc, hexact⟩ | ⟨rfl, rfl, -, -, rfl⟩ := h
  · simpa using exactOffset_bounds hc hexact
  · decide

/-- The first PROCESS from START emits nothing, and a walk has its zero there. -/
theorem walkOffset_first (t : Table) (p0 : PinPattern) :
    (tableRead t fsmStart p0).dir.sign = 0 ∧ walkOffset t p0 (tableRead t fsmStart p0).next p0 0 := by
  unfold walkOffset
  revert p0; cases t <;> decide

/-! ### Offsets that every command keeps -/

/-- `R` is a family of offsets, of a state at a pattern, that every command other than RESET keeps: one that samples
nothing reports no event, one that samples an equal or neighbouring pattern adds `k` per event less the quarter step. -/
def KeptByCommands (R : Table → FsmCode → PinPattern → Int → Prop) : Prop :=
  ∀ (s : State) (i : Instr) (p : PinPattern) (d : Int), R s.table s.fsmState p d → isReset i = false →
    ∃ t, exec i s = .next t ∧ t.table = s.table ∧
      (sampled i = none → statusEvents t.statusOut = 0 ∧ R t.table t.fsmState p d) ∧
      (∀ q, sampled i = some q → p ^^^ q ≠ 0b11#2 →
        R t.table t.fsmState q (d + quartersPerEvent s.table * statusEvents t.statusOut - quarterStep p q))

/-- It is enough that the states of the family are legal and that the entries of the tables keep it. -/
theorem keptByCommands_of_entries {R : Table → FsmCode → PinPattern → Int → Prop}
    (hlegal : ∀ {t s p d}, R t s p d → fsmLegal t s = true)
    (hnext : ∀ {t s p q d}, R t s p d → p ^^^ q ≠ 0b11#2 →
      R t (tableRead t s q).next q (d + quartersPerEvent t * (tableRead t s q).dir.sign - quarterStep p q)) :
    KeptByCommands R := by
  intro s i p d h hreset
  cases hsampled : sampled i with
  | none =>
    obtain ⟨t, hexec, htable, hfsm, hevents⟩ := exec_of_unsampled (s := s) hsampled hreset
    refine ⟨t, hexec, htable, fun _ => ⟨hevents, ?_⟩, fun q hq => nomatch hq⟩
    rwa [htable, hfsm]
  | some q =>
    obtain ⟨t, hexec, htable, hfsm, hevents⟩ := exec_of_sampled (hlegal h) hsampled
    refine ⟨t, hexec, htable, (nomatch ·), fun q' hq hgray => ?_⟩
    obtain rfl : q = q' := Option.some.inj hq
    rw [htable, hfsm, hevents]
    exact hnext h hgray

/-- The exact offsets are kept, as the entries of both tables keep them. -/
theorem exactOffset_keptByCommands : KeptByCommands fun t s p d => exactOffset t s p = some d :=
  keptByCommands_of_entries fsmLegal_of_exactOffset exactOffset_next

/-- Settles O57, which says `KeptByCommands` of the exact offsets in full. -/
theorem exactOffsetKeptByCommands : Obligations.ExactOffsetKeptByCommands := exactOffset_keptByCommands

/-- The offsets of a walk from `p0` are kept in the same way. -/
theorem walkOffset_keptByCommands (p0 : PinPattern) : KeptByCommands fun t s p o => walkOffset t p0 s p o :=
  keptByCommands_of_entries fsmLegal_of_walkOffset walkOffset_next

/-- The first command that samples, from START, enters the walk with offset 0. -/
theorem exec_enters_walk {i : Instr} {s : State} {p0 : PinPattern} (hfsm : s.fsmState = fsmStart)
    (hp0 : sampled i = some p0) :
    ∃ t, exec i s = .next t ∧ statusEvents t.statusOut = 0 ∧ walkOffset t.table p0 t.fsmState p0 0 := by
  have hs : Legal s := by rw [Legal, hfsm, fsmLegal_start]
  obtain ⟨t, hexec, htable, hnext, hevents⟩ := exec_of_sampled hs hp0
  obtain ⟨hquiet, hwalk⟩ := walkOffset_first s.table p0
  rw [hfsm] at hnext hevents
  exact ⟨t, hexec, hevents.trans hquiet, by rw [htable, hnext]; exact hwalk⟩

/-- Settles O58: kept by every command, within the bounds, and entered at the first sample. -/
theorem walkOffsetKeptByCommands : Obligations.WalkOffsetKeptByCommands :=
  ⟨fun s i p0 p o => walkOffset_keptByCommands p0 s i p o, fun _ _ _ _ _ => walkOffset_bounds,
    fun _ _ _ => exec_enters_walk⟩

/-! ### Along a run -/

/-- How a run of a command and others reaches a state: the command answers a next state, and the others run from it. -/
theorem run_cons_eq_next {i : Instr} {is : List Instr} {s t : State} (h : run (i :: is) s = .next t) :
    ∃ u, exec i s = .next u ∧ run is u = .next t := by
  cases hexec : exec i s with
  | next u => exact ⟨u, rfl, (run_cons_next hexec is).symm.trans h⟩
  | fault r | refused r => simp [run, hexec] at h

/-- A family of offsets that every command keeps is kept along a gray-code walk, the run's events and the walk's quarter
steps added up. The walk starts at `p`, where the state has the offset `d`. -/
theorem run_keeps_offset {R : Table → FsmCode → PinPattern → Int → Prop} (hR : KeptByCommands R) {is : List Instr}
    (hreset : ∀ i ∈ is, isReset i = false) {s : State} {p : PinPattern} {d : Int} (h : R s.table s.fsmState p d)
    (hgray : grayWalk (p :: patterns is) = true) :
    ∃ u q, run is s = .next u ∧ (p :: patterns is).getLast? = some q ∧
      R s.table u.fsmState q (d + quartersPerEvent s.table * netEvents is s - netQuarters (p :: patterns is)) := by
  induction is generalizing s p d with
  | nil => exact ⟨s, p, rfl, rfl, by simpa [netEvents, patterns, netQuarters] using h⟩
  | cons i is ih =>
    obtain ⟨hi, his⟩ := List.forall_mem_cons.mp hreset
    obtain ⟨t, hexec, htable, hquiet, hstep⟩ := hR s i p d h hi
    rw [run_cons_next hexec, netEvents_cons_next hexec]
    cases hsampled : sampled i with
    | none =>
      obtain ⟨hevents, ht⟩ := hquiet hsampled
      rw [patterns_cons_none hsampled] at hgray ⊢
      rw [hevents, zero_add, ← htable]
      exact ih his ht hgray
    | some q =>
      rw [patterns_cons_some hsampled] at hgray ⊢
      rw [grayWalk_cons_cons, Bool.and_eq_true, bne_iff_ne] at hgray
      obtain ⟨hneighbour, hrest⟩ := hgray
      obtain ⟨u, r, hrun, hlast, hoffset⟩ := ih his (hstep q hsampled hneighbour) hrest
      refine ⟨u, r, hrun, by rw [List.getLast?_cons_cons, hlast], ?_⟩
      rw [htable] at hoffset
      rw [netQuarters_cons_cons]
      convert hoffset using 1
      ring

/-- RESET answers START and keeps the table. -/
theorem fsmState_of_reset {r s : State} (h : exec .reset r = .next s) : s.fsmState = fsmStart := by
  cases exec_effect h with
  | reset => rfl
  | quiet _ hreset => cases hreset
  | sampling sw b a hcommand => exact absurd (isReset_of_command hcommand) (by decide)

/-! ### Walks from `00` -/

/-- A run without RESET from START whose patterns are a gray-code walk from `00`: the premise of R86. -/
structure ExactWalk (s : State) (is : List Instr) : Prop where
  start : s.fsmState = fsmStart
  noReset : ∀ i ∈ is, isReset i = false
  gray : grayWalk (patterns is) = true
  first : (patterns is).head? = some 0b00#2

/-- START has offset 0 at `00`, and repeating the walk's first pattern ahead of it adds no quarter step. -/
theorem ExactWalk.offset {s : State} {is : List Instr} (h : ExactWalk s is) :
    ∃ u p, run is s = .next u ∧ (patterns is).getLast? = some p ∧
      exactOffset s.table u.fsmState p =
        some (quartersPerEvent s.table * netEvents is s - netQuarters (patterns is)) := by
  obtain ⟨ps, hps⟩ : ∃ ps, patterns is = 0b00#2 :: ps := List.head?_eq_some_iff.mp h.first
  have hstart : exactOffset s.table s.fsmState 0b00#2 = some 0 := by
    rw [h.start]; cases s.table <;> rfl
  have hrepeat : grayWalk (0b00#2 :: patterns is) = true := by
    rw [hps, grayWalk_cons_cons, ← hps, h.gray]; rfl
  obtain ⟨u, q, hrun, hlast, hoffset⟩ := run_keeps_offset exactOffset_keptByCommands h.noReset hstart hrepeat
  rw [hps, List.getLast?_cons_cons, ← hps] at hlast
  rw [hps, netQuarters_cons_cons, ← hps, show quarterStep 0b00#2 0b00#2 = 0 from rfl, zero_add, zero_add] at hoffset
  exact ⟨u, q, hrun, hlast, hoffset⟩

/-- At a rest position `k*E = D`. -/
theorem ExactWalk.exact_of_rest {s : State} {is : List Instr} {p : PinPattern} (h : ExactWalk s is)
    (hlast : (patterns is).getLast? = some p) (hrest : restPattern s.table p = true) :
    quartersPerEvent s.table * netEvents is s = netQuarters (patterns is) := by
  obtain ⟨u, q, -, hq, hoffset⟩ := h.offset
  obtain rfl : p = q := Option.some.inj (hlast.symm.trans hq)
  exact sub_eq_zero.mp (exactOffset_of_rest hrest hoffset)

/-- Settles O48: RESET answers START. -/
theorem exactCountingOnGrayWalks : Obligations.ExactCountingOnGrayWalks := fun _ _ _ hr hreset hgray hhead =>
  ExactWalk.offset ⟨fsmState_of_reset hr, hreset, hgray, hhead⟩

/-- Settles O49: a rest position of the walk has offset 0. -/
theorem exactAtRestPositions : Obligations.ExactAtRestPositions := fun _ _ _ _ hr hreset hgray hhead =>
  ExactWalk.exact_of_rest ⟨fsmState_of_reset hr, hreset, hgray, hhead⟩

/-! ### Bounce -/

/-- The first part of a gray-code walk is one. -/
theorem grayWalk_of_append {ps qs : List PinPattern} (h : grayWalk (ps ++ qs) = true) : grayWalk ps = true := by
  induction ps with
  | nil => rfl
  | cons p ps ih =>
    cases ps with
    | nil => rfl
    | cons q rest =>
      simp only [List.cons_append, grayWalk_cons_cons, Bool.and_eq_true] at h ⊢
      exact ⟨h.1, ih h.2⟩

/-- The first part of a walk from `00` is one, if it samples a pattern. -/
theorem ExactWalk.of_append {s : State} {is js : List Instr} (h : ExactWalk s (is ++ js))
    (hfirst : (patterns is).head? = some 0b00#2) : ExactWalk s is where
  start := h.start
  noReset i hi := h.noReset i (List.mem_append_left js hi)
  gray := grayWalk_of_append (patterns_append is js ▸ h.gray)
  first := hfirst

theorem run_table {is : List Instr} {s t : State} (h : run is s = .next t) : t.table = s.table := by
  induction is generalizing s with
  | nil => cases h; rfl
  | cons i is ih =>
    obtain ⟨u, hexec, hrun⟩ := run_cons_eq_next h
    exact (ih hrun).trans (exec_table hexec)

/-- A command that reports an event samples a rest position. -/
theorem restPattern_of_statusEvents {i : Instr} {s t : State} (h : exec i s = .next t)
    (hevent : statusEvents t.statusOut ≠ 0) : ∃ q, sampled i = some q ∧ restPattern s.table q = true := by
  cases exec_effect h with
  | reset | quiet => exact absurd statusEvents_zero hevent
  | sampling sw b a hcommand =>
    rw [State.drive_statusOut, statusEvents_statusByte] at hevent
    have hdir : (entryAt s b a).dir ≠ .noEvent := fun hquiet => hevent (by rw [hquiet]; rfl)
    exact ⟨_, sampled_of_command hcommand, restPattern_of_event hdir⟩

theorem run_singleton (i : Instr) (s : State) : run [i] s = exec i s := by
  cases hexec : exec i s <;> simp [run, hexec]

/-- The last command of a walk reports no event, or it ends the walk at a rest position, where the count is exact. -/
theorem ExactWalk.netEvents_last {s : State} {is : List Instr} {i : Instr} (h : ExactWalk s (is ++ [i]))
    (hfirst : (patterns is).head? = some 0b00#2) :
    netEvents (is ++ [i]) s = netEvents is s ∨
      quartersPerEvent s.table * netEvents (is ++ [i]) s = netQuarters (patterns (is ++ [i])) := by
  obtain ⟨v, -, hrun, -, -⟩ := (h.of_append hfirst).offset
  obtain ⟨w, -, hexec, -, -⟩ := h.offset
  rw [run_append_next hrun, run_singleton] at hexec
  by_cases hevent : statusEvents w.statusOut = 0
  · left
    rw [netEvents_append_next hrun, netEvents_cons_next hexec, hevent]
    simp [netEvents]
  · right
    obtain ⟨q, hq, hrest⟩ := restPattern_of_statusEvents hexec hevent
    rw [run_table hrun] at hrest
    exact h.exact_of_rest (by simp [patterns, hq]) hrest

/-- Counts whose displacements are less than one event apart are equal. -/
theorem eq_of_within (t : Table) {m n : Int} (hlt : quartersPerEvent t * m - quartersPerEvent t * n < quartersPerEvent t)
    (hgt : quartersPerEvent t * n - quartersPerEvent t * m < quartersPerEvent t) : m = n := by
  cases t <;> simp only [quartersPerEvent] at hlt hgt <;> omega

/-- Settles O50, command by command: an event would end the walk at a rest position, where the count is exact as it is where
the stretch starts; less than `k` quarter steps apart, the two counts are equal. -/
theorem bounceEmitsNothing : Obligations.BounceEmitsNothing := by
  intro r s pre post p hr hreset hgray hhead hlast hrest hnear q
  have hfirst (js : List Instr) : (patterns (pre ++ js)).head? = some 0b00#2 := by
    rw [patterns_append, List.head?_append, hhead]; rfl
  have hwalk : ExactWalk s (pre ++ post) := ⟨fsmState_of_reset hr, hreset, hgray, hfirst post⟩
  have hpre := (hwalk.of_append hhead).exact_of_rest hlast hrest
  induction q using List.reverseRecOn with
  | nil => exact fun _ => by rw [List.append_nil]
  | append_singleton q i ih =>
    intro hq
    obtain ⟨hlt, hgt⟩ := hnear _ hq
    have hpart : ExactWalk s (pre ++ (q ++ [i])) := by
      obtain ⟨rest, rfl⟩ := hq
      rw [← List.append_assoc] at hwalk
      exact hwalk.of_append (hfirst _)
    rw [← List.append_assoc] at hpart hlt hgt ⊢
    obtain hsame | hexact := hpart.netEvents_last (hfirst q)
    · exact hsame.trans (ih ((List.prefix_append q [i]).trans hq))
    · rw [← hexact, ← hpre] at hlt hgt
      exact eq_of_within s.table hlt hgt

/-! ### Walks from any first pattern -/

/-- Settles O51: what comes before the first sample reports nothing and stays in START; the first sample enters the walk,
and its offset is kept from there on. -/
theorem firstSampleBounds : Obligations.FirstSampleBounds := by
  intro r s is p hr hreset hgray hhead
  have hstart := fsmState_of_reset hr
  clear hr
  induction is generalizing s with
  | nil => cases hhead
  | cons i is ih =>
    obtain ⟨hi, his⟩ := List.forall_mem_cons.mp hreset
    cases hsampled : sampled i with
    | none =>
      obtain ⟨t, hexec, htable, hfsm, hevents⟩ := exec_of_unsampled (s := s) hsampled hi
      rw [patterns_cons_none hsampled] at hgray hhead ⊢
      rw [run_cons_next hexec, netEvents_cons_next hexec, hevents, zero_add, ← htable]
      exact ih t his hgray hhead (hfsm.trans hstart)
    | some q =>
      rw [patterns_cons_some hsampled] at hgray hhead ⊢
      obtain rfl : q = p := Option.some.inj hhead
      obtain ⟨t, hexec, hevents, henter⟩ := exec_enters_walk hstart hsampled
      obtain ⟨u, l, hrun, -, hoffset⟩ := run_keeps_offset (walkOffset_keptByCommands q) his henter hgray
      rw [run_cons_next hexec, netEvents_cons_next hexec, hevents, zero_add]
      rw [exec_table hexec, zero_add] at hoffset
      exact ⟨⟨u, hrun⟩, walkOffset_bounds hoffset⟩

end Sys2Proof.Counting
end

section
/-! PROOFS. Runs of commands: they never stop after a RESET (spec 60_exceptions.md R89), lose no event
(70_reset_and_hazards.md section 3), read back the net count and the switch (41_read.md section 4, 10_state.md section 4),
and do not depend on spacing (60_exceptions.md section 6). -/

namespace Sys2Proof.Runs

open Sys2Proof.Machine Sys2Proof.Safety Sys2Proof.Encoding Sys2Proof.Commands Sys2Proof.Counting

/-! ### No run stops after a RESET -/

/-- From a legal state every run completes, in a legal state. -/
theorem run_legal {s : State} (hs : Legal s) (is : List Instr) : ∃ t, run is s = .next t ∧ Legal t := by
  induction is generalizing s with
  | nil => exact ⟨s, rfl, hs⟩
  | cons i is ih =>
    obtain ⟨u, hexec⟩ := exec_completes (i := i) (.inl hs)
    rw [run_cons_next hexec]
    exact ih (exec_legal hs hexec)

/-- Settles O39: RESET answers START, which is legal, from any state. -/
theorem runsAfterResetNeverStop : Obligations.RunsAfterResetNeverStop := by
  intro s ws
  obtain ⟨t, hexec⟩ := exec_completes (i := .reset) (s := s) (.inr rfl)
  have ht : Legal t := by rw [Legal, fsmState_of_reset hexec, fsmLegal_start]
  rw [run_cons_next hexec]
  exact run_legal ht _

/-! ### No event is lost -/

/-- Settles O53: the law of one command, added up along the run. -/
theorem noEventLostOrDoubled : Obligations.NoEventLostOrDoubled := by
  intro s t is hreset h
  induction is generalizing s with
  | nil => cases h; simp [drained, netEvents]
  | cons i is ih =>
    obtain ⟨hi, his⟩ := List.forall_mem_cons.mp hreset
    obtain ⟨u, hexec, hrun⟩ := run_cons_eq_next h
    rw [drained_cons_next hexec, netEvents_cons_next hexec, BitVec.ofInt_add]
    calc u.readOut.extractLsb' 0 7 + drained is u + t.acc
        = u.readOut.extractLsb' 0 7 + (drained is u + t.acc) := BitVec.add_assoc ..
      _ = u.readOut.extractLsb' 0 7 + u.acc + BitVec.ofInt 7 (netEvents is u) := by
          rw [ih u his hrun, BitVec.add_assoc]
      _ = s.acc + (BitVec.ofInt 7 (statusEvents u.statusOut) + BitVec.ofInt 7 (netEvents is u)) := by
          rw [exec_conserves hi hexec, BitVec.add_assoc]

/-- Without a READ nothing is read out. -/
theorem drained_eq_zero {is : List Instr} (hread : ∀ i ∈ is, issuesRead i = false) (s : State) : drained is s = 0#7 := by
  induction is generalizing s with
  | nil => rfl
  | cons i is ih =>
    obtain ⟨hi, his⟩ := List.forall_mem_cons.mp hread
    cases hexec : exec i s with
    | next u =>
      rw [drained_cons_next hexec, ih his, (outputsZeroWhenNotDriven i s u hexec).2 hi]; rfl
    | fault r | refused r => simp [drained, hexec]

/-- READ, register by register. -/
theorem exec_read_registers (s : State) :
    ∃ t, exec .read s = .next t ∧ t.fsmState = s.fsmState ∧ t.acc = 0#7 ∧ t.swState = s.swState ∧
      readDelta t.readOut = s.acc.toInt ∧ readSwitch t.readOut = s.swState :=
  ⟨_, rfl, rfl, rfl, rfl, congrArg BitVec.toInt (readByte_rotation s.swState s.acc), readSwitch_readByte _ _⟩

/-- Settles O52: the first READ leaves 0, so the second finds the events of the run between them; as a 7-bit signed value
they are the balanced residue. -/
theorem readReturnsNetCount : Obligations.ReadReturnsNetCount := by
  intro s t u is hcommands hread hrun
  obtain ⟨-, -, -, hcleared⟩ := registerAccess .read s t hread
  have hzero : t.acc = 0#7 := hcleared rfl rfl
  have hconserved := noEventLostOrDoubled t u is (fun i hi => (hcommands i hi).1) hrun
  rw [drained_eq_zero fun i hi => (hcommands i hi).2, hzero, BitVec.zero_add, BitVec.zero_add] at hconserved
  obtain ⟨r, hexec, -, -, -, hdelta, -⟩ := exec_read_registers u
  exact ⟨r, hexec, by rw [hdelta, hconserved, BitVec.toInt_ofInt]⟩

/-! ### READ after READ, and the switch -/

/-- Commands without PROCESS and RESET complete, and keep the switch level and a count of 0. -/
theorem run_keeps_zero_count {is : List Instr} (hquiet : ∀ i ∈ is, issuesProcess i = false ∧ isReset i = false) {s : State}
    (hzero : s.acc = 0#7) : ∃ t, run is s = .next t ∧ t.acc = 0#7 ∧ t.swState = s.swState := by
  induction is generalizing s with
  | nil => exact ⟨s, rfl, hzero, rfl⟩
  | cons i is ih =>
    obtain ⟨⟨hprocess, hreset⟩, his⟩ := List.forall_mem_cons.mp hquiet
    obtain ⟨u, hexec⟩ := exec_completes (s := s) (.inr hprocess)
    obtain ⟨hkept, -, -, -⟩ := registerAccess i s u hexec
    have hu : u.acc = 0#7 := by
      cases exec_effect hexec with
      | reset | quiet => simp [startCount, hzero]
      | sampling sw b a hcommand => simp [issuesProcess_of_command hcommand] at hprocess
    obtain ⟨t, hrun, hacc, hsw⟩ := ih his hu
    exact ⟨t, (run_cons_next hexec is).trans hrun, hacc, hsw.trans (hkept hprocess hreset).2⟩

/-- Settles O29: the first READ leaves 0, and nothing between the two changes the count or the switch. -/
theorem secondReadReturnsZero : Obligations.SecondReadReturnsZero := by
  intro s is hquiet
  obtain ⟨t, hfirst, -, hzero, hsw, -, hswitch⟩ := exec_read_registers s
  obtain ⟨u, hrun, huacc, husw⟩ := run_keeps_zero_count hquiet hzero
  obtain ⟨v, hsecond, -, -, -, hvdelta, hvswitch⟩ := exec_read_registers u
  refine ⟨t, u, v, hfirst, hrun, hsecond, by rw [hvdelta, huacc]; rfl, ?_⟩
  rw [hvswitch, husw, hsw, hswitch]

/-- One command leaves in `sw_state` what a run of it alone does. -/
theorem exec_swState {i : Instr} {s t : State} (h : exec i s = .next t) : t.swState = switchAfter [i] s.swState := by
  cases exec_effect h with
  | reset hi => rw [hi]; rfl
  | quiet hsampled hreset =>
    cases i with
    | reset => cases hreset
    | nop | read => rfl
    | process | processRead => cases hsampled
  | sampling sw b a hcommand => obtain rfl | rfl := hcommand <;> rfl

theorem switchAfter_cons (i : Instr) (is : List Instr) (v : Bit) :
    switchAfter (i :: is) v = switchAfter is (switchAfter [i] v) := by
  cases i <;> rfl

/-- The switch level at the end of a run. -/
theorem run_swState {is : List Instr} {s t : State} (h : run is s = .next t) :
    t.swState = switchAfter is s.swState := by
  induction is generalizing s with
  | nil => cases h; rfl
  | cons i is ih =>
    obtain ⟨u, hexec, hrun⟩ := run_cons_eq_next h
    rw [ih hrun, exec_swState hexec, ← switchAfter_cons]

/-- Settles O30: the level is followed along the run; both READ forms return it in bit 7 of the read byte. -/
theorem switchHoldsLatestSample : Obligations.SwitchHoldsLatestSample := by
  intro s t is h
  refine ⟨run_swState h, ?_, fun ht sw b a => ?_⟩
  · obtain ⟨r, hexec, -, -, hsw, -, hswitch⟩ := exec_read_registers t
    exact ⟨r, hexec, hswitch, hsw⟩
  · obtain ⟨r, hexec, hout⟩ := exec_readOut_of_issuesRead (i := .processRead sw b a) rfl (.inl ht)
    exact ⟨r, hexec, by rw [hout, readSwitch_readByte]⟩

/-! ### Spacing -/

/-- No command reads the outputs, and every command drives both: what stood on them makes no difference. -/
theorem exec_drive (i : Instr) (s : State) (status read : Byte) : exec i (s.drive status read) = exec i s := by
  cases i <;> rfl

theorem netEvents_drive (is : List Instr) (s : State) (status read : Byte) :
    netEvents is (s.drive status read) = netEvents is s := by
  cases is with
  | nil => rfl
  | cons i is => simp only [netEvents, exec_drive]

theorem drained_drive (is : List Instr) (s : State) (status read : Byte) :
    drained is (s.drive status read) = drained is s := by
  cases is with
  | nil => rfl
  | cons i is => simp only [drained, exec_drive]

/-- A run that begins with other outputs ends in the same state but for the outputs, which differ only where it is empty. -/
theorem run_of_run_drive {is : List Instr} {s t : State} {status read : Byte}
    (h : run is (s.drive status read) = .next t) : ∃ status' read', run is s = .next (t.drive status' read') := by
  cases is with
  | nil => cases h; exact ⟨s.statusOut, s.readOut, rfl⟩
  | cons i is =>
    simp only [run, exec_drive] at h ⊢
    exact ⟨t.statusOut, t.readOut, h⟩

/-- The simulation: without its NOPs a completed run ends in the same state but for the outputs, with the same events and
the same count read out. A NOP only drives the outputs. -/
theorem run_without_nops {is : List Instr} {s t : State} (h : run is s = .next t) :
    (∃ status read, run (is.filter fun i => !isNop i) s = .next (t.drive status read)) ∧
      netEvents (is.filter fun i => !isNop i) s = netEvents is s ∧
      drained (is.filter fun i => !isNop i) s = drained is s := by
  induction is generalizing s with
  | nil => cases h; exact ⟨⟨t.statusOut, t.readOut, rfl⟩, rfl, rfl⟩
  | cons i is ih =>
    obtain ⟨u, hexec, hrun⟩ := run_cons_eq_next h
    obtain ⟨⟨status, read, hrest⟩, hevents, hdrained⟩ := ih hrun
    rw [netEvents_cons_next hexec, drained_cons_next hexec, ← hevents, ← hdrained]
    cases hnop : isNop i with
    | false =>
      rw [List.filter_cons_of_pos (by simp [hnop]), netEvents_cons_next hexec, drained_cons_next hexec,
        run_cons_next hexec]
      exact ⟨⟨status, read, hrest⟩, rfl, rfl⟩
    | true =>
      obtain rfl : i = .nop := isNop_iff.mp hnop
      obtain rfl : s.drive 0x00#8 0x00#8 = u := Host.Outcome.next.inj hexec
      obtain ⟨status', read', hrun'⟩ := run_of_run_drive hrest
      rw [List.filter_cons_of_neg (by simp [hnop]), netEvents_drive, drained_drive]
      exact ⟨⟨status', read', hrun'⟩, (zero_add _).symm, (BitVec.zero_add _).symm⟩

/-- Settles O54: the end states differ in the outputs alone. -/
theorem spacingIrrelevant : Obligations.SpacingIrrelevant := by
  intro s t is h
  obtain ⟨⟨status, read, hrun⟩, hevents, hdrained⟩ := run_without_nops h
  exact ⟨t.drive status read, hrun, rfl, rfl, rfl, hevents, hdrained⟩

end Sys2Proof.Runs
end

section
/-! PROOFS. The cycle input word and the bytes of a command stream (spec 30_encoding.md R42, R43, R50 to R54): the decoder
on every word, and its agreement with the encoder. -/

namespace Sys2Proof.CommandMap

open Sys2Proof.Machine Sys2Proof.Process Sys2Proof.Read

/-! ### Words -/

/-- `rst` comes first (R43): the strobes and the pins are not looked at. -/
theorem decode_of_rst {w : CycleWord} (hrst : CycleWord.rst w = 1#1) : decode w = .reset := by
  simp [decode, hrst]

theorem decode_reset (x : BitVec 5) : decode (1#1 ++ x) = .reset :=
  decode_of_rst (by revert x; decide)

theorem decode_nop (x : BitVec 3) : decode (0b000#3 ++ x) = .nop := by
  revert x; decide

theorem decode_processRead (sw b a : Bit) : decode (0b011#3 ++ sw ++ b ++ a) = .processRead sw b a := by
  revert sw b a; decide

/-- Settles O1, word by word. -/
theorem sampleWordsDecode : Obligations.SampleWordsDecode := by
  unfold Obligations.SampleWordsDecode; decide

/-- Settles O2: one lemma for each row of the command map. -/
theorem commandFollowsStrobes : Obligations.CommandFollowsStrobes :=
  ⟨decode_reset, decode_nop, decode_process, decode_read, decode_processRead⟩

/-- Settles O3, for all 64 port levels. -/
theorem portsAtTheirBits : Obligations.PortsAtTheirBits := by
  intro ⟨rst, readEn, processEn, pinSw, pinB, pinA⟩
  revert rst readEn processEn pinSw pinB pinA
  decide

/-- Settles O4, for all 64 words. -/
theorem everyWordIsOneCommand : Obligations.EveryWordIsOneCommand := by
  unfold Obligations.EveryWordIsOneCommand; decide

/-- The encoder writes each command's row and operands, so the decoder reads them back. -/
theorem decode_encode (i : Instr) : decode (encode i) = i := by
  cases i with
  | reset => exact decode_reset 0#5
  | nop => exact decode_nop 0#3
  | process sw b a => exact decode_process sw b a
  | read => exact decode_read 0#3
  | processRead sw b a => exact decode_processRead sw b a

/-! ### Bytes -/

/-- A byte holds a cycle word exactly when it is below 64: bits 7..6 are its quotient by 64. -/
theorem isCycleByte_iff (b : Byte) : isCycleByte b = true ↔ b.toNat < 64 := by
  have hb : b.toNat < 256 := b.isLt
  rw [isCycleByte, beq_iff_eq, ← BitVec.toNat_inj, BitVec.extractLsb'_toNat, Nat.shiftRight_eq_div_pow]
  simp only [BitVec.toNat_ofNat]
  omega

theorem decodeByte_of_lt {b : Byte} (h : b.toNat < 64) : decodeByte b = .ok (decode (b.extractLsb' 0 6)) :=
  if_pos ((isCycleByte_iff b).mpr h)

theorem decodeByte_of_le {b : Byte} (h : 64 ≤ b.toNat) : decodeByte b = .error .notACycleWord :=
  if_neg fun hcycle => absurd ((isCycleByte_iff b).mp hcycle) (Nat.not_lt.mpr h)

/-- Settles O7: the two sides of the bound. -/
theorem bytesOutsideTheWordRejected : Obligations.BytesOutsideTheWordRejected := fun _ =>
  ⟨decodeByte_of_lt, decodeByte_of_le⟩

/-- A command's byte holds its word in bits 5..0. -/
theorem encodeByte_word (i : Instr) : (encodeByte i).extractLsb' 0 6 = encode i := by
  rw [encodeByte]
  generalize encode i = w
  revert w; decide

theorem encodeByte_lt (i : Instr) : (encodeByte i).toNat < 64 := by
  have hw : (encode i).toNat < 64 := (encode i).isLt
  rw [encodeByte, BitVec.toNat_setWidth]
  omega

theorem decodeByte_encodeByte (i : Instr) : decodeByte (encodeByte i) = .ok i := by
  rw [decodeByte_of_lt (encodeByte_lt i), encodeByte_word, decode_encode]

/-- Settles O5: no operand is dropped in the word, nor in the byte. -/
theorem decodeOfEncode : Obligations.DecodeOfEncode := fun i _ => ⟨decode_encode i, decodeByte_encodeByte i⟩

/-- Settles O6: every command is one byte, so the stream decodes command by command. -/
theorem streamDecodeOfEncode : Obligations.StreamDecodeOfEncode := by
  intro is
  induction is with
  | nil => rfl
  | cons i is ih => simp only [encodeStream, decodeStream, decodeByte_encodeByte, ih]

/-! ### What the host reads in a read byte -/

theorem rotation_toNat (r : Byte) : (r.extractLsb' 0 7).toNat = r.toNat % 128 := by
  rw [BitVec.extractLsb'_toNat, Nat.shiftRight_zero]

/-- Bits 6..0 as two's complement (R50). -/
theorem readDelta_eq (r : Byte) :
    readDelta r = if r.toNat % 128 < 64 then (r.toNat % 128 : Int) else (r.toNat % 128 : Int) - 128 := by
  rw [readDelta, BitVec.toInt_eq_toNat_cond, rotation_toNat]
  split <;> split <;> omega

/-- Settles O26: the range follows from the value; the examples are read. -/
theorem hostReadsRotation : Obligations.HostReadsRotation := by
  refine ⟨fun r => ?_, by decide⟩
  have hvalue := readDelta_eq r
  refine ⟨?_, ?_, hvalue⟩ <;> (rw [hvalue]; split <;> omega)

end Sys2Proof.CommandMap
end

section
/-! PROOFS. One clock cycle and the words placed on the ports (spec 00_scope.md section 5, 20_memory.md section 4): the step
runs the command of its word, and steps over placed words are the run of their commands. -/

namespace Sys2Proof.Cycle

open Sys2Proof.Machine Sys2Proof.Safety Sys2Proof.Commands Sys2Proof.CommandMap

/-! ### One step -/

theorem step_eq (s : State) : step s = exec (decode s.nextWord) s.consume := rfl

theorem consume_placed {s : State} {w : CycleWord} {ws : List CycleWord} (h : s.hostWords = w :: ws) :
    s.consume = { s with hostWords := ws } := by
  simp only [State.consume, h]

theorem consume_free {s : State} (h : s.hostWords = []) : s.consume = { s with draws := s.draws + 1 } := by
  simp only [State.consume, h]

/-- Settles O8: a step is the command of `nextWord` on the state without it, whether placed or drawn. -/
theorem stepRunsDecodedCommand : Obligations.StepRunsDecodedCommand := by
  intro s i _ hdecode
  refine ⟨by rw [step_eq, hdecode], fun w ws h => ?_, fun h => ?_⟩
  · exact ⟨State.nextWord_placed h, consume_placed h⟩
  · exact ⟨State.nextWord_free h, consume_free h⟩

/-- The word of a byte, from its number. -/
theorem ofNat_word (n : Nat) : (BitVec.ofNat 8 n).extractLsb' 0 6 = BitVec.ofNat 6 n := by
  apply BitVec.eq_of_toNat_eq
  rw [BitVec.extractLsb'_toNat, Nat.shiftRight_zero, BitVec.toNat_ofNat, BitVec.toNat_ofNat]
  omega

/-- What the decoder reads from the byte of an instruction is the command of its six low bits. -/
theorem decode_of_decodeTableWord {nbits w : Nat} {i : Instr} (h : decodeTableWord nbits w = some i) :
    decode (BitVec.ofNat 6 (w % 2 ^ nbits)) = i := by
  rw [← ofNat_word]
  generalize hbyte : BitVec.ofNat 8 (w % 2 ^ nbits) = byte
  simp only [decodeTableWord, hbyte, decodeBytes] at h
  obtain hlt | hle := Nat.lt_or_ge byte.toNat 64
  · rw [decodeByte_of_lt hlt] at h
    obtain ⟨-, hcommand⟩ : w % 2 ^ nbits < 256 ∧ decode (byte.extractLsb' 0 6) = i := by simpa using h
    exact hcommand
  · simp [decodeByte_of_le hle] at h

/-- Settles O9: the placed word stands in for the one the host would have driven, and the step takes it away again. -/
theorem placedWordRunsNext : Obligations.PlacedWordRunsNext := by
  intro s w i hdecode
  rw [step_eq, State.withFetchWord, State.placeWord_nextWord, decode_of_decodeTableWord hdecode]
  rfl

/-! ### Steps over placed words -/

/-- What a command answers does not depend on the words placed, and it leaves them there. -/
theorem exec_withHostWords {i : Instr} {s t : State} (h : exec i s = .next t) (ws : List CycleWord) :
    exec i { s with hostWords := ws } = .next { t with hostWords := ws } := by
  cases i with
  | reset | nop | read => cases h; rfl
  | process sw b a | processRead sw b a =>
    obtain ⟨hlegal, rfl⟩ := (processFrom_next_iff ..).mp h
    exact (processFrom_next_iff ..).mpr ⟨hlegal, rfl⟩

/-- A command that stops, stops whatever words are placed. -/
theorem exec_fault_withHostWords {i : Instr} {s : State} {r : Fault} (h : exec i s = .fault r) (ws : List CycleWord) :
    exec i { s with hostWords := ws } = .fault r := by
  cases hexec : exec i { s with hostWords := ws } with
  | next t => exact absurd ((exec_withHostWords hexec s.hostWords).symm.trans h) nofun
  | fault r' => cases r; cases r'; rfl
  | refused r' => exact absurd hexec (exec_not_refused _ _ _)

theorem core_run_succ_next {s t : State} (h : step s = .next t) (n : Nat) : core.run (n + 1) s = core.run n t := by
  simp only [Host.Core.run, show core.step s = .next t from h]

theorem core_run_succ_fault {s : State} {r : Fault} (h : step s = .fault r) (n : Nat) : core.run (n + 1) s = .fault r := by
  simp only [Host.Core.run, show core.step s = .fault r from h]

theorem run_cons_fault {i : Instr} {s : State} {r : Fault} (h : exec i s = .fault r) (is : List Instr) :
    run (i :: is) s = .fault r := by
  simp only [run, h]

/-- Settles O10: each step runs the command of the next word, and what it answers is what the command answers where the word
was never placed. -/
theorem placedWordsRunInOrder : Obligations.PlacedWordsRunInOrder := by
  intro s ws rest hplaced
  induction ws generalizing s with
  | nil => simp only [List.nil_append] at hplaced; subst hplaced; rfl
  | cons w ws ih =>
    rw [List.cons_append] at hplaced
    have hstep : step s = exec (decode w) { s with hostWords := ws ++ rest } := by
      rw [step_eq, State.nextWord_placed hplaced, consume_placed hplaced]
    rw [List.length_cons, List.map_cons]
    cases hexec : exec (decode w) { s with hostWords := ws ++ rest } with
    | next t =>
      have hbare : exec (decode w) { s with hostWords := rest } = .next { t with hostWords := rest } :=
        exec_withHostWords hexec rest
      rw [core_run_succ_next (hstep.trans hexec), run_cons_next hbare]
      exact ih t (exec_hostWords hexec)
    | fault r =>
      have hbare : exec (decode w) { s with hostWords := rest } = .fault r := exec_fault_withHostWords hexec rest
      exact (core_run_succ_fault (hstep.trans hexec) _).trans (run_cons_fault hbare _).symm
    | refused r => exact absurd hexec (exec_not_refused _ _ _)

end Sys2Proof.Cycle
end

section
/-! PROOFS. RESET, NOP and PROCESS_READ, the fault, and the instances of a platform (spec 70_reset_and_hazards.md section 1,
41_read.md sections 2 and 3, 10_state.md section 2, 60_exceptions.md section 6). -/

namespace Sys2Proof.Effects

open Sys2Proof.Machine Sys2Proof.Safety Sys2Proof.Process Sys2Proof.Commands Sys2Proof.CommandMap Sys2Proof.Read

/-! ### RESET and NOP -/

/-- RESET as the state's operations. -/
theorem exec_reset (s : State) : exec .reset s = .next ((s.writeRegs fsmStart 0#7 0#1).drive 0x00#8 0x00#8) := rfl

/-- Settles O11: the operations of RESET as one record; a word with `rst` set decodes to RESET. -/
theorem resetEffect : Obligations.ResetEffect := fun s =>
  ⟨exec_reset s, fun w hrst => by rw [cycle, decode_of_rst hrst]⟩

/-- Settles O12: NOP drives the outputs and does nothing else. -/
theorem nopEffect : Obligations.NopEffect := fun _ => rfl

/-- Settles O35: RESET writes what the reset state holds, whatever its table. -/
theorem resetStateValues : Obligations.ResetStateValues :=
  ⟨⟨rfl, rfl, rfl, rfl, rfl⟩, fun t => ⟨State.resetFor_table t, exec_reset _⟩⟩

/-- Settles O36: RESET writes every field that power-up leaves open. -/
theorem powerUpNeedsOneReset : Obligations.PowerUpNeedsOneReset := exec_reset State.powerUp

/-! ### PROCESS_READ -/

/-- The count of PROCESS_READ in the bytes of its pseudocode: one step from 0. -/
theorem accStep_zero (d : Dir) :
    accStep d 0#7 = if d.code = 1#2 then 0x01#7 else if d.code = 2#2 then 0x7F#7 else 0x00#7 :=
  accStep_eq_ite d 0#7

/-- Settles O15: `e` is the byte of the entry read, and each register written is a field of it. -/
theorem processReadEffect : Obligations.ProcessReadEffect := by
  refine ⟨decode_processRead, fun s sw b a hs => ⟨_, memRead_entryAt hs b a, ?_⟩⟩
  rw [exec_processRead_legal hs, byte_next, byte_dir, ← accStep_zero]
  rfl

/-- Settles O16: READ leaves the entry that PROCESS reads, and 0 to count from. -/
theorem processReadIsReadThenProcess : Obligations.ProcessReadIsReadThenProcess := by
  intro s sw b a hs
  have hr : Legal (s.clearAcc.drive 0x00#8 (readByte s.swState s.acc)) := hs
  exact ⟨_, _, exec_read s, exec_process_legal hr sw b a, exec_processRead_legal hs sw b a⟩

/-! ### The fault -/

/-- The values that name no state of the table. -/
theorem fsmLegal_eq_false {t : Table} {f : FsmCode}
    (h : (t = .halfStep ∧ 6 ≤ f.toNat) ∨ (t = .fullStep ∧ 7 ≤ f.toNat)) : fsmLegal t f = false := by
  rw [Bool.eq_false_iff, Ne, fsmLegal_iff]
  obtain ⟨rfl, hf⟩ | ⟨rfl, hf⟩ := h <;> exact Nat.not_lt.mpr hf

/-- Settles O17: both commands take the same step, which faults. -/
theorem illegalStateFaults : Obligations.IllegalStateFaults := fun _ sw b a h =>
  ⟨processFrom_illegal _ _ sw b a (fsmLegal_eq_false h), processFrom_illegal _ _ sw b a (fsmLegal_eq_false h)⟩

/-! ### Instances -/

/-- A command to place `k` of a platform puts the state it answers alone in place `k`. -/
theorem command_of_next {p : Platform} {k : Nat} {i : Instr} {s t : State} (hk : p[k]? = some s)
    (h : exec i s = .next t) : p.command k i = .next (p.set k t) := by
  simp only [Platform.command, hk, h]

/-- Settles O34: the other places of the list are not written. -/
theorem instancesIndependent : Obligations.InstancesIndependent := by
  intro p k i s hk hruns
  obtain ⟨t, hexec⟩ := exec_completes hruns
  obtain ⟨hlt, -⟩ := List.getElem?_eq_some_iff.mp hk
  exact ⟨p.set k t, t, command_of_next hk hexec, hexec, List.getElem?_set_self hlt, List.length_set,
    fun j hj => List.getElem?_set_ne hj.symm⟩

end Sys2Proof.Effects
end

section
/-! PROOFS. Command streams (spec 30_encoding.md R54, R55): the bytes of the written lines, the expansions of the
pseudo-commands, and reading back what was written, lexer first and then parser. -/

namespace Sys2Proof.Streams

open Sys2Proof.Machine Sys2Proof.Safety Sys2Proof.Tables

/-! ### Encodings and expansions -/

/-- The byte of a PROCESS line: SW at bit 2, BA below it. -/
theorem encodeByte_processLine (p : PinPattern) (sw : Bit) :
    encodeByte (processLine p sw) = 0x08#8 ||| (sw.setWidth 8 <<< 2) ||| p.setWidth 8 := by
  revert p sw; decide

theorem encodeByte_processReadLine (p : PinPattern) (sw : Bit) :
    encodeByte (processReadLine p sw) = 0x18#8 ||| (sw.setWidth 8 <<< 2) ||| p.setWidth 8 := by
  revert p sw; decide

theorem encodeStream_eq_map (is : List Instr) : encodeStream is = is.map encodeByte := by
  induction is with
  | nil => rfl
  | cons i is ih => rw [encodeStream, ih, List.map_cons]

theorem encodeStream_feed (ps : List PinPattern) (sw : Bit) :
    encodeStream (feed ps sw) = ps.map fun p => 0x08#8 ||| (sw.setWidth 8 <<< 2) ||| p.setWidth 8 := by
  rw [encodeStream_eq_map, feed, List.map_map]
  exact List.map_congr_left fun p _ => encodeByte_processLine p sw

/-- FEED samples its patterns, in order. -/
theorem patterns_feed (ps : List PinPattern) (sw : Bit) : patterns (feed ps sw) = ps := by
  induction ps with
  | nil => rfl
  | cons p ps ih =>
    have hp : sampled (processLine p sw) = some p := congrArg some (pinPattern_of_levels p)
    rw [feed_cons, patterns_cons_some hp, ih]

theorem repeatLines_eq (n : Nat) (is : List Instr) : repeatLines n is = (List.replicate n is).flatten := by
  induction n with
  | zero => rfl
  | succ n ih => rw [repeatLines, ih, List.replicate_succ, List.flatten_cons]

theorem idle_eq (n : Nat) : idle n = List.replicate n .nop := by
  rw [idle, repeatLines_eq, List.flatten_replicate_singleton]

/-- Settles O55: FEED is a map over its patterns, REPEAT a flattened list of copies, IDLE a REPEAT of one NOP. -/
theorem pseudoCommandExpansions : Obligations.PseudoCommandExpansions := by
  refine ⟨⟨rfl, rfl, rfl⟩, fun p sw => ⟨encodeByte_processLine p sw, encodeByte_processReadLine p sw⟩, fun ps sw => ?_,
    repeatLines_eq, fun n => ⟨idle_eq n, ?_⟩⟩
  · exact ⟨rfl, encodeStream_feed ps sw, List.length_map _, patterns_feed ps sw⟩
  · rw [encodeStream_eq_map, idle_eq, List.map_replicate]; rfl

/-! ### Reading back a written line -/

/-- The operands of a PROCESS or PROCESS_READ line, in tokens. -/
def operandTokens (s b a : Bit) : List Token := [.word [writeBit b, writeBit a], .comma, .word [writeBit s]]

/-- The tokens of a command's written line. -/
def lineTokens : Instr → List Token
  | .reset => [.word ['R', 'E', 'S', 'E', 'T']]
  | .nop => [.word ['N', 'O', 'P']]
  | .process s b a => .word ['P', 'R', 'O', 'C', 'E', 'S', 'S'] :: operandTokens s b a
  | .read => [.word ['R', 'E', 'A', 'D']]
  | .processRead s b a => .word ['P', 'R', 'O', 'C', 'E', 'S', 'S', '_', 'R', 'E', 'A', 'D'] :: operandTokens s b a

/-- The lexer on a written line. -/
theorem lex_writeLine (i : Instr) : lex [] false (writeLine i) = lineTokens i := by
  cases i with
  | reset | nop | read => decide
  | process s b a | processRead s b a => revert s b a; decide

/-- A comment after the line leaves only the newline behind it. -/
theorem lex_writeLine_comment (i : Instr) :
    lex [] false (writeLine i ++ [' ', ';', ' ', 'x', '\n']) = lineTokens i ++ [.newline] := by
  cases i with
  | reset | nop | read => decide
  | process s b a | processRead s b a => revert s b a; decide

theorem readBit_writeBit (v : Bit) : readBit [writeBit v] = some v := by
  revert v; decide

theorem readOperands_operandTokens (s b a : Bit) (ts : List Token) :
    readOperands (operandTokens s b a ++ ts) = some (pinPattern b a, s, ts) := by
  simp [operandTokens, readOperands, readPattern, readBit_writeBit]

theorem processLine_pinPattern (s b a : Bit) : processLine (pinPattern b a) s = .process s b a := by
  rw [processLine, pinPattern_high, pinPattern_low]

theorem processReadLine_pinPattern (s b a : Bit) : processReadLine (pinPattern b a) s = .processRead s b a := by
  rw [processReadLine, pinPattern_high, pinPattern_low]

/-- The parser on a line's tokens, with what ends the line after them. -/
theorem parseLines_lineTokens (i : Instr) {ts : List Token} (hends : lineEnds ts = true) (fuel : Nat) :
    parseLines (fuel + 1) (lineTokens i ++ ts) = (parseLines fuel ts).map fun r => (i :: r.1, r.2) := by
  cases i with
  | reset | nop | read =>
    cases hrest : parseLines fuel ts <;> simp [lineTokens, parseLines, hends, hrest]
  | process s b a =>
    cases hrest : parseLines fuel ts <;>
      simp [lineTokens, parseLines, hends, hrest, readOperands_operandTokens, processLine_pinPattern]
  | processRead s b a =>
    cases hrest : parseLines fuel ts <;>
      simp [lineTokens, parseLines, hends, hrest, readOperands_operandTokens, processReadLine_pinPattern]

theorem lineTokens_length (i : Instr) : ∃ n, (lineTokens i).length = n + 1 := by
  cases i <;> exact ⟨_, rfl⟩

/-- A text that lexes to a line's tokens, with no command behind them, assembles to that line's command. -/
theorem assemble_of_lex {text : List Char} {i : Instr} {ts : List Token} (hlex : lex [] false text = lineTokens i ++ ts)
    (hends : lineEnds ts = true) (hrest : ∀ n, parseLines (n + ts.length + 1) ts = some ([], [])) :
    assemble text = some [i] := by
  obtain ⟨n, hn⟩ := lineTokens_length i
  have hlength : (lineTokens i ++ ts).length = n + ts.length + 1 := by rw [List.length_append, hn]; omega
  rw [assemble, hlex, hlength, parseLines_lineTokens i hends, hrest]
  rfl

/-- Settles O56: the line lexes to its tokens; nothing, or the newline behind the comment, is left after them. -/
theorem writtenLineReadsBack : Obligations.WrittenLineReadsBack := fun i =>
  ⟨assemble_of_lex (ts := []) (by rw [lex_writeLine, List.append_nil]) rfl fun _ => rfl,
    assemble_of_lex (ts := [.newline]) (lex_writeLine_comment i) rfl fun _ => rfl⟩

end Sys2Proof.Streams
end
